-- ==== Sys2Proof/Word.lean ====
section
/-! DEFINITION. The machine's words: the widths of 00_scope.md R7. -/

namespace Sys2Proof

/-- An instruction word, a register value, an ALU value or an effective address: 32 bits (R7, R20, R70). -/
abbrev Word := BitVec 32

/-- The value of one cell of main memory, 0 to 255 (R30, R51). -/
abbrev Byte := BitVec 8

/-- The index of a general register, 0 to 31: a 5-bit field of the instruction word (R20, R71). -/
abbrev RegIdx := BitVec 5

/-- The immediate field, 16 bits read as a two's complement signed value (R74). -/
abbrev Imm16 := BitVec 16

/-- The distinguished all-zero instruction word, "no instruction in this stage" (R14, R76). -/
abbrev Word.noop : Word := 0#32

end Sys2Proof
end

