-- ==== Sys2Proof/Syntax.lean ====
section
/-! DEFINITION. The instruction set: one constructor for each row of spec/opcode_table.json, in the table's order.
Operands stand in the order of their bits in the word, most significant first. -/

namespace Sys2Proof

/-- The five instructions of R75. A register operand is any index 0 to 31 and an immediate any 16-bit value, so each
term is an instruction of the machine. -/
inductive Instr where
  /-- `nop`, the all-zero word (R150). -/
  | nop
  /-- `add $rd, $rs, $rt` (R130). `shamt` is in the word and takes no part in the instruction (R77). -/
  | add (rs rt rd : RegIdx) (shamt : BitVec 5)
  /-- `sub $rd, $rs, $rt` (R131). `shamt` is in the word and takes no part in the instruction (R77). -/
  | sub (rs rt rd : RegIdx) (shamt : BitVec 5)
  /-- `lb $rt, imm($rs)` (R140). -/
  | lb (rs rt : RegIdx) (imm : Imm16)
  /-- `sb $rt, imm($rs)` (R141). -/
  | sb (rs rt : RegIdx) (imm : Imm16)
deriving DecidableEq, Repr

end Sys2Proof
end

