-- ==== Sys2Proof/Decode.lean ====
section
/-! DEFINITION. The instruction decoder of 30_encoding.md: the fields of a word, the opcode map, and the encoder. -/

namespace Sys2Proof

/-- The seven fields of an instruction word (R71). -/
structure Fields where
  opcode    : BitVec 6
  rs        : RegIdx
  rt        : RegIdx
  rd        : RegIdx
  shamt     : BitVec 5
  funct     : BitVec 6
  immediate : Imm16
deriving DecidableEq, Repr

/-- The decoder function of R71: pure and total, "no side effects, no failure modes". -/
def fieldsOf (w : Word) : Fields where
  opcode    := w.extractLsb' 26 6
  rs        := w.extractLsb' 21 5
  rt        := w.extractLsb' 16 5
  rd        := w.extractLsb' 11 5
  shamt     := w.extractLsb' 6 5
  funct     := w.extractLsb' 0 6
  immediate := w.extractLsb' 0 16

/-- The opcode of `add` and `sub` (R75). -/
abbrev opcodeR : BitVec 6 := 0x00#6
/-- The opcode of `lb` (R75). -/
abbrev opcodeLb : BitVec 6 := 0x20#6
/-- The opcode of `sb` (R75). -/
abbrev opcodeSb : BitVec 6 := 0x28#6
/-- The function code of `add` (R75). -/
abbrev functAdd : BitVec 6 := 0x20#6
/-- The function code of `sub` (R75). -/
abbrev functSub : BitVec 6 := 0x22#6

/-- What the opcode map answers for a word: an instruction, or a rejection that names the unsupported word (R78). -/
inductive Decoded where
  | instr (i : Instr)
  /-- A decode-table miss: the word is not zero and no row of R75 selects it. -/
  | decodeMiss (w : Word)
deriving DecidableEq, Repr

/-- The opcode map of R75. The NOOP word is recognised by comparing the whole word with zero before the table is
consulted (R76). -/
def decode (w : Word) : Decoded :=
  let f := fieldsOf w
  if w = Word.noop then .instr .nop
  else if f.opcode = opcodeR ∧ f.funct = functAdd then .instr (.add f.rs f.rt f.rd f.shamt)
  else if f.opcode = opcodeR ∧ f.funct = functSub then .instr (.sub f.rs f.rt f.rd f.shamt)
  else if f.opcode = opcodeLb then .instr (.lb f.rs f.rt f.immediate)
  else if f.opcode = opcodeSb then .instr (.sb f.rs f.rt f.immediate)
  else .decodeMiss w

/-- The R-shape word of R72 with `opcode = 0x00`. -/
def rShapeWord (rs rt rd : RegIdx) (shamt : BitVec 5) (funct : BitVec 6) : Word :=
  (rs.setWidth 32 <<< 21) ||| (rt.setWidth 32 <<< 16) ||| (rd.setWidth 32 <<< 11) ||| (shamt.setWidth 32 <<< 6)
    ||| funct.setWidth 32

/-- The I-shape word of R73. -/
def iShapeWord (opcode : BitVec 6) (rs rt : RegIdx) (imm : Imm16) : Word :=
  (opcode.setWidth 32 <<< 26) ||| (rs.setWidth 32 <<< 21) ||| (rt.setWidth 32 <<< 16) ||| imm.setWidth 32

/-- The word of an instruction (R72, R73, R76). -/
def encode : Instr → Word
  | .nop => Word.noop
  | .add rs rt rd shamt => rShapeWord rs rt rd shamt functAdd
  | .sub rs rt rd shamt => rShapeWord rs rt rd shamt functSub
  | .lb rs rt imm => iShapeWord opcodeLb rs rt imm
  | .sb rs rt imm => iShapeWord opcodeSb rs rt imm

/-- One row of the machine-readable opcode map: a word `w` is selected when `w AND mask = pattern` (R75). -/
structure OpcodeRow where
  mnemonic : String
  mask     : Word
  pattern  : Word
deriving DecidableEq, Repr

/-- `w` is selected by the row: `(w AND mask) = match` (R75). -/
abbrev OpcodeRow.Selects (row : OpcodeRow) (w : Word) : Prop := w &&& row.mask = row.pattern

/-- The mask and match columns of R75, row by row. -/
def rowNop : OpcodeRow := ⟨"nop", 0xFFFFFFFF, 0x00000000⟩
/-- R75, `add`. -/
def rowAdd : OpcodeRow := ⟨"add", 0xFC00003F, 0x00000020⟩
/-- R75, `sub`. -/
def rowSub : OpcodeRow := ⟨"sub", 0xFC00003F, 0x00000022⟩
/-- R75, `lb`. -/
def rowLb : OpcodeRow := ⟨"lb", 0xFC000000, 0x80000000⟩
/-- R75, `sb`. -/
def rowSb : OpcodeRow := ⟨"sb", 0xFC000000, 0xA0000000⟩

/-- The complete opcode map of R75 as rows. -/
def opcodeMap : List OpcodeRow := [rowNop, rowAdd, rowSub, rowLb, rowSb]

/-- The word whose low `nbits` bits are those of `w` and whose bits above are zero. An instruction is one 32-bit word
and not a string of bytes, so no byte order takes part (R55, R70). -/
def tableWord (nbits w : Nat) : Word := BitVec.ofNat 32 (w % 2 ^ nbits)

/-- The instruction the decoder reads from a word numbered as spec/opcode_table.json numbers it; none for a
decode-table miss, and none for more than one word of bits (R70, R79). -/
def decodeTableWord (nbits w : Nat) : Option Instr :=
  if nbits ≤ 32 then
    match decode (tableWord nbits w) with
    | .instr i => some i
    | .decodeMiss _ => none
  else none

end Sys2Proof
end

