-- ==== Sys2Proof/Config.lean ====
section
/-! DEFINITION. The parameters of 00_scope.md R7. The spec leaves no value of a step undefined (R109), so there is no
free value here. `MEM_SIZE` and the instruction stream are arguments of a run; State carries them (log 1, log 2). -/

namespace Sys2Proof.Config

/-- The least number of cells of main memory (R7, D2). -/
abbrev minMemSize : Nat := 1

/-- The greatest number of cells of main memory (R7, D2): an address with bit 31 set is never in range (R50). -/
abbrev maxMemSize : Nat := 2 ^ 31

/-- The number of cells the model's reset state has. DESIGN CHOICE (log 1), unsafe: the spec leaves `MEM_SIZE` open and
suggests 1024 for runs (R7, D2). Statements hold for every size. -/
abbrev resetMemSize : Nat := 1024

end Sys2Proof.Config
end

