-- ==== Sys2Proof/WellFormed.lean ====
section
/-! DEFINITION. Which operands and which parameters are well formed. -/

namespace Sys2Proof

/-- The operand ranges of R71 and R80: registers and `shamt` 0 to 31, the offset -32768 to 32767. The types of `Instr`
carry these ranges, so no ill-formed instruction can be written down (`Laws.wellFormed_all`). -/
abbrev Instr.WellFormed : Instr → Prop
  | .nop => True
  | .add rs rt rd shamt => rs.toNat ≤ 31 ∧ rt.toNat ≤ 31 ∧ rd.toNat ≤ 31 ∧ shamt.toNat ≤ 31
  | .sub rs rt rd shamt => rs.toNat ≤ 31 ∧ rt.toNat ≤ 31 ∧ rd.toNat ≤ 31 ∧ shamt.toNat ≤ 31
  | .lb rs rt imm => rs.toNat ≤ 31 ∧ rt.toNat ≤ 31 ∧ -32768 ≤ imm.toInt ∧ imm.toInt ≤ 32767
  | .sb rs rt imm => rs.toNat ≤ 31 ∧ rt.toNat ≤ 31 ∧ -32768 ≤ imm.toInt ∧ imm.toInt ≤ 32767

/-- A size of main memory the hardware admits: `1 <= MEM_SIZE <= 2^31` (R7). -/
abbrev MemSizeOk (size : Nat) : Prop := Config.minMemSize ≤ size ∧ size ≤ Config.maxMemSize

end Sys2Proof
end

