-- ==== Sys2Proof/Machine/State.lean ====
section
/-! DEFINITION. The state of 10_state.md as plain data, its reset value, and the reasons a step can stop. -/

namespace Sys2Proof.Machine

/-- A control or data field of a latch that may hold the tag `DC` instead of a value (R9, D4; log 5). -/
abbrev OrDC (α : Type) := Option α

/-- The tag `DC`, "don't-care": distinct from every value (R9). -/
abbrev DC {α : Type} : OrDC α := none

/-- The ALU operation `ALUOp` (R34). -/
inductive AluOp where
  /-- The value 0: the ALU adds. -/
  | add
  /-- The value 2: the ALU does what `funct` says. -/
  | byFunct
deriving DecidableEq, Repr

/-- The control-signal vector of R90. A one-bit signal is a Bool, true for 1 (D7; log 5). -/
structure Control where
  regDst   : OrDC Bool
  aluSrc   : OrDC Bool
  aluOp    : OrDC AluOp
  memRead  : Bool
  memWrite : Bool
  memToReg : OrDC Bool
  regWrite : Bool
deriving DecidableEq, Repr

/-- The payload of the fetch-to-decode latch (R33). -/
structure IFID where
  iw : Word
deriving DecidableEq, Repr

/-- The payload of the decode-to-execute latch: the word, the seven control signals and five operand fields (R34). -/
structure IDEX where
  iw            : Word
  ctl           : Control
  readReg1Value : OrDC Word
  readReg2Value : OrDC Word
  offset        : OrDC Imm16
  writeRegA     : OrDC RegIdx
  writeRegB     : OrDC RegIdx
deriving DecidableEq, Repr

/-- The payload of the execute-to-memory latch (R35). -/
structure EXMEM where
  iw         : Word
  memRead    : Bool
  memWrite   : Bool
  memToReg   : OrDC Bool
  regWrite   : Bool
  aluResult  : OrDC Word
  storeValue : OrDC Word
  writeReg   : OrDC RegIdx
deriving DecidableEq, Repr

/-- The payload of the memory-to-write-back latch (R36). -/
structure MEMWB where
  iw          : Word
  memToReg    : OrDC Bool
  regWrite    : Bool
  loadedValue : OrDC Byte
  aluResult   : OrDC Word
  writeReg    : OrDC RegIdx
deriving DecidableEq, Repr

/-- A pipeline latch: "a pair of slots, `write` and `read`, both holding the same payload type" (R32). -/
structure Latch (α : Type) where
  write : α
  read  : α
deriving DecidableEq, Repr

/-- The control vector of the NOOP payload (R37, R90). -/
abbrev Control.noop : Control :=
  { regDst := DC, aluSrc := DC, aluOp := DC, memRead := false, memWrite := false, memToReg := DC, regWrite := false }

/-- The NOOP payload of IFID (R37). -/
abbrev IFID.noop : IFID := { iw := Word.noop }

/-- The NOOP payload of IDEX (R37). -/
abbrev IDEX.noop : IDEX :=
  { iw := Word.noop, ctl := Control.noop, readReg1Value := DC, readReg2Value := DC, offset := DC, writeRegA := DC,
    writeRegB := DC }

/-- The NOOP payload of EXMEM (R37). -/
abbrev EXMEM.noop : EXMEM :=
  { iw := Word.noop, memRead := false, memWrite := false, memToReg := DC, regWrite := false, aluResult := DC,
    storeValue := DC, writeReg := DC }

/-- The NOOP payload of MEMWB (R37). -/
abbrev MEMWB.noop : MEMWB :=
  { iw := Word.noop, memToReg := DC, regWrite := false, loadedValue := DC, aluResult := DC, writeReg := DC }

/-- The error conditions that are raised in a cycle, with what each records (R40, R160). -/
inductive Error where
  /-- DecodeMiss, recording the offending word (R161). -/
  | decodeMiss (word : Word)
  /-- AddressOutOfRange, recording the effective address (R162). -/
  | addressOutOfRange (addr : Word)
deriving DecidableEq, Repr

/-- Main memory: the cells that do not hold their reset contents, by rising address (R30, R51; log 12). -/
abbrev Memory := List Host.Cell

/-- The whole state of the machine (R44), with the two arguments of a run that the spec does not count as state: the
instruction stream and `MEM_SIZE` (R7, R31; log 1, log 2). -/
structure State where
  /-- The 32 general registers (R20). -/
  regs    : Vector Word 32
  /-- The fetch index, counting words of the stream (R25; log 14). -/
  pc      : Nat
  /-- The instruction stream `IStream`; its length is `N`. No step changes it (R31). -/
  stream  : List Word
  /-- `MEM_SIZE`, the number of cells of main memory. No step changes it (R7). -/
  memSize : Nat
  /-- Main memory (R30). -/
  mem     : Memory
  ifid    : Latch IFID
  idex    : Latch IDEX
  exmem   : Latch EXMEM
  memwb   : Latch MEMWB
  /-- The number of cycles run (R11, R44; log 9). -/
  cycle   : Nat
  /-- The error report `Err`, each error with the cycle it was raised in, oldest first (R40; log 8). -/
  err     : List (Nat × Error)
  /-- The sticky bit of the error report (R40). -/
  fault   : Bool
deriving DecidableEq, Repr

/-- The reasons a step can stop with a fault: none. Every error of the taxonomy is recorded in the error report and the
pipeline keeps advancing (R160), so no step of this machine ends in a fault (log 15; safe). -/
inductive Fault : Type
deriving DecidableEq, Repr

/-- The field of a latch that a stage would have to use as a value while it holds `DC` (U3). -/
inductive DontCareUse where
  /-- Memory-access: `MemRead = 1` or `MemWrite = 1` with `ALUResult = DC`. -/
  | address
  /-- Memory-access: an in-range store with `StoreValue = DC`. -/
  | storeValue
  /-- Write-back: `RegWrite = 1` with `MemToReg = DC`. -/
  | memToReg
  /-- Write-back: `RegWrite = 1` with `WriteReg = DC`. -/
  | writeReg
  /-- Write-back: `RegWrite = 1` with the selected value `DC`. -/
  | writeBackValue
deriving DecidableEq, Repr

/-- The reasons the model gives no next state. -/
inductive Refusal where
  /-- Raised by an arm of exec for an instruction that has no meaning yet; no arm is of that kind (safe). -/
  | notModelled (mnemonic : String)
  /-- Raised by memory-access and write-back when a latch they read asks them to use `DC` as a value. The spec defines
  nothing for it and says to refuse (U3, U7, D15); no state that meets R108 gets there (safe; log 6). -/
  | dontCareRead (use : DontCareUse)
  /-- Raised by `launch` for a launch state that R43 does not admit (U7; safe; log 11). -/
  | launchNotAdmitted
deriving DecidableEq, Repr

/-- The reset value of register `n`: `n + 0x100`, except register 0 which is 0 (R23). -/
def resetReg (n : Fin 32) : Word := if n.val = 0 then 0 else BitVec.ofNat 32 (0x100 + n.val)

/-- `ResetState(MEM_SIZE)` of R43 with the instruction stream the host supplies (R44, R190). -/
def State.resetState (memSize : Nat) (stream : List Word) : State where
  regs    := Vector.ofFn resetReg
  pc      := 0
  stream  := stream
  memSize := memSize
  mem     := []
  ifid    := ⟨IFID.noop, IFID.noop⟩
  idex    := ⟨IDEX.noop, IDEX.noop⟩
  exmem   := ⟨EXMEM.noop, EXMEM.noop⟩
  memwb   := ⟨MEMWB.noop, MEMWB.noop⟩
  cycle   := 0
  err     := []
  fault   := false

/-- The machine right after reset, before the host has supplied a stream. DESIGN CHOICE, unsafe: the size of main
memory (log 1) and the empty stream (log 2); every other field has the value of R44. -/
def State.reset : State := State.resetState Config.resetMemSize []

end Sys2Proof.Machine
end

