-- ==== Sys2Proof/Machine/Flags.lean ====
section
/-! DEFINITION. The control signals. The hardware has no status flags and no condition codes (R27), so there is no flag
computation; "the source's only use of the word flags is for the control signals", and those are here. -/

namespace Sys2Proof.Machine

/-- The row of `add` and of `sub` in R90. -/
def Control.arith : Control :=
  { regDst := some true, aluSrc := some false, aluOp := some .byFunct, memRead := false, memWrite := false,
    memToReg := some false, regWrite := true }

/-- The row of `lb` in R90. -/
def Control.load : Control :=
  { regDst := some false, aluSrc := some true, aluOp := some .add, memRead := true, memWrite := false,
    memToReg := some true, regWrite := true }

/-- The row of `sb` in R90. -/
def Control.store : Control :=
  { regDst := DC, aluSrc := some true, aluOp := some .add, memRead := false, memWrite := true, memToReg := DC,
    regWrite := false }

/-- The control-signal table, keyed on (opcode, funct) (R90). -/
def controlTable (opcode funct : BitVec 6) : Option Control :=
  if opcode = opcodeR then
    if funct = functAdd ∨ funct = functSub then some Control.arith else none
  else if opcode = opcodeLb then some Control.load
  else if opcode = opcodeSb then some Control.store
  else none

/-- The control-signal vector of a word, none for an unsupported word (R90); the NOOP word has the vector of the IDEX
NOOP payload (D7). -/
def controlSignals (w : Word) : Option Control :=
  if w = Word.noop then some Control.noop
  else controlTable (fieldsOf w).opcode (fieldsOf w).funct

end Sys2Proof.Machine
end

