-- ==== Sys2Proof/Machine/Ops.lean ====
section
/-! DEFINITION. The named operations over main memory, registers, latches and the error report. -/

namespace Sys2Proof.Machine

/-! ## Main memory -/

/-- What a cell that the list does not name holds: its reset contents, `n mod 256` (R51; log 12). -/
def Memory.unlisted (a : Nat) : Byte := BitVec.ofNat 8 (a % 256)

/-- The byte at an address. -/
def Memory.read : Memory → Nat → Byte
  | [], a => Memory.unlisted a
  | (k, b) :: m, a => if k = a then b else Memory.read m a

/-- Every entry but those of address `a`. -/
def Memory.erase : Memory → Nat → Memory
  | [], _ => []
  | (k, b) :: m, a => if k = a then Memory.erase m a else (k, b) :: Memory.erase m a

/-- An entry put before the first one of a greater address. -/
def Memory.insert : Memory → Nat → Byte → Memory
  | [], a, v => [(a, v)]
  | (k, b) :: m, a, v => if a < k then (a, v) :: (k, b) :: m else (k, b) :: Memory.insert m a v

/-- Set the byte at an address, keeping the canonical form. -/
def Memory.write (m : Memory) (a : Nat) (v : Byte) : Memory :=
  if v = Memory.unlisted a then Memory.erase m a else Memory.insert (Memory.erase m a) a v

/-- The canonical form: addresses strictly rising, and no entry equal to what an unlisted address reads as. -/
abbrev Memory.wf (m : Memory) : Prop :=
  m.Pairwise (fun p q => p.1 < q.1) ∧ ∀ p ∈ m, p.2 ≠ Memory.unlisted p.1

/-- An address is in range when it is below `MEM_SIZE` as an unsigned 32-bit value (R50). -/
abbrev State.InRange (s : State) (a : Word) : Prop := a.toNat < s.memSize

/-- The main-memory cell `Mem[a]`. -/
def State.cell (s : State) (a : Nat) : Byte := s.mem.read a

/-- `MemRead(addr, 1)` of R52; none where it raises AddressOutOfRange. -/
def State.memRead (s : State) (a : Word) : Option Byte :=
  if s.InRange a then some (s.cell a.toNat) else none

/-- `MemWrite(addr, 1, v)` of R53, which keeps the low 8 bits of `v`; none where it raises AddressOutOfRange. -/
def State.memWrite (s : State) (a v : Word) : Option State :=
  if s.InRange a then some { s with mem := s.mem.write a.toNat (v.extractLsb' 0 8) } else none

/-! ## General registers -/

/-- `x[r]` (R20). Register 0 is read like any other (R21). -/
def State.reg (s : State) (r : RegIdx) : Word := s.regs.get r.toFin

/-- `x[r] <- v`. Register 0 is written like any other (R21). -/
def State.setReg (s : State) (r : RegIdx) (v : Word) : State := { s with regs := s.regs.set r.toNat v r.isLt }

/-! ## The write sides of the latches -/

/-- Write `IFID.write` (R33). -/
def State.putIfid (s : State) (p : IFID) : State := { s with ifid := { s.ifid with write := p } }

/-- Write every field of `IDEX.write` (R34, R38). -/
def State.putIdex (s : State) (p : IDEX) : State := { s with idex := { s.idex with write := p } }

/-- Write every field of `EXMEM.write` (R35, R38). -/
def State.putExmem (s : State) (p : EXMEM) : State := { s with exmem := { s.exmem with write := p } }

/-- Write every field of `MEMWB.write` (R36, R38). -/
def State.putMemwb (s : State) (p : MEMWB) : State := { s with memwb := { s.memwb with write := p } }

/-! ## The fetch index and the clock edge -/

/-- `pc <- pc + 1` (R26, R92). -/
def State.advancePc (s : State) : State := { s with pc := s.pc + 1 }

/-- The copy of one latch at the clock edge: `read` takes `write`, and `write` keeps its contents (R38). -/
def Latch.copy {α : Type} (l : Latch α) : Latch α := { l with read := l.write }

/-- The clock-edge latch copy of R102, which ends the cycle. -/
def State.latchCopy (s : State) : State :=
  { s with ifid := s.ifid.copy, idex := s.idex.copy, exmem := s.exmem.copy, memwb := s.memwb.copy, cycle := s.cycle + 1 }

/-! ## The error report -/

/-- `raise E(info)`, which is all that taking an exception is on this hardware (R10, R160, R167): append to `Err` of the
current cycle and set the sticky bit. It saves no state, changes no mode and redirects no fetch, and nothing returns
from it (R168). The current cycle is one more than the cycles already run (R11). -/
def State.raise (s : State) (e : Error) : State := { s with err := s.err ++ [(s.cycle + 1, e)], fault := true }

/-- `Err[c]`, the errors raised in cycle `c`, in the order they were raised (R40). -/
def State.errAt (s : State) (c : Nat) : List Error := (s.err.filter (fun p => p.1 == c)).map Prod.snd

/-- The names of the error taxonomy (R160). -/
inductive ErrorName where
  | decodeMiss
  | addressOutOfRange
  | streamExhaustedMidFlight
deriving DecidableEq, Repr

/-- The ordinals of R164, for a reader who wants numbers. -/
def errorOrdinal : ErrorName → Nat
  | .decodeMiss => 1
  | .addressOutOfRange => 2
  | .streamExhaustedMidFlight => 3

/-- The name of a recorded error. -/
def errorName : Error → ErrorName
  | .decodeMiss _ => .decodeMiss
  | .addressOutOfRange _ => .addressOutOfRange

/-! ## Sequencing -/

/-- Go on from a next state; a fault or a refusal stays what it is. -/
def andThen (o : Host.Outcome State Fault Refusal) (f : State → Host.Outcome State Fault Refusal) :
    Host.Outcome State Fault Refusal :=
  match o with
  | .next s => f s
  | .fault r => .fault r
  | .refused r => .refused r

end Sys2Proof.Machine
end

