-- ==== Sys2Proof/Machine/Operands.lean ====
section
/-! DEFINITION. The operand forms: what decode snapshots for each instruction shape, the ALU's operands and result, and
the choice of the destination register. -/

namespace Sys2Proof.Machine

/-- `sext_32` of a 16-bit field (R10). -/
def sext32 (v : Imm16) : Word := v.signExtend 32

/-- `zext_32` of a byte (R10). -/
def zext32 (v : Byte) : Word := v.setWidth 32

/-- The one addressing mode, base register plus signed 16-bit displacement: the sum wraps and the base register is not
modified (R142). -/
def effectiveAddress (base : Word) (imm : Imm16) : Word := base + sext32 imm

/-- What decode writes to IDEX for an R-shape instruction (R93): both source registers, no offset, the candidates `rt`
and `rd`. -/
def rShapePayload (iw : Word) (ctl : Control) (rs rt rd : RegIdx) (s : State) : IDEX :=
  { iw := iw, ctl := ctl, readReg1Value := some (s.reg rs), readReg2Value := some (s.reg rt), offset := DC,
    writeRegA := some rt, writeRegB := some rd }

/-- What decode writes to IDEX for an I-shape instruction (R93): base and `rt` registers, the offset, the candidates `rt`
and `rs` (D21). -/
def iShapePayload (iw : Word) (ctl : Control) (rs rt : RegIdx) (imm : Imm16) (s : State) : IDEX :=
  { iw := iw, ctl := ctl, readReg1Value := some (s.reg rs), readReg2Value := some (s.reg rt), offset := some imm,
    writeRegA := some rt, writeRegB := some rs }

/-- What decode writes to IDEX for a NOOP word, with no register read (R94). -/
def noopPayload (_ : State) : IDEX := IDEX.noop

/-- What decode writes to IDEX for an unsupported word: the NOOP payload but for the word itself, with no register read
(R95). -/
def bubblePayload (w : Word) (_ : State) : IDEX := { IDEX.noop with iw := w }

/-- The destination register that `RegDst` selects (R96). -/
def selectedWriteReg (d : IDEX) : OrDC RegIdx :=
  match d.ctl.regDst with
  | some false => d.writeRegA
  | some true => d.writeRegB
  | none => DC

/-- The ALU's second operand `B` (R97). -/
def aluOperandB (d : IDEX) : OrDC Word :=
  match d.ctl.aluSrc with
  | some false => d.readReg2Value
  | some true => d.offset.map sext32
  | none => DC

/-- The ALU on two values (R97): `ALUOp = 0` adds; `ALUOp = 2` adds or subtracts as `funct` says, and yields `DC` for any
other `funct`. The results wrap modulo 2^32 (R132). -/
def alu (op : AluOp) (funct : BitVec 6) (a b : Word) : OrDC Word :=
  match op with
  | .add => some (a + b)
  | .byFunct => if funct = functAdd then some (a + b) else if funct = functSub then some (a - b) else DC

/-- `ALUResult` of R97: `DC` if `ALUOp`, `A` or `B` is `DC`, which is tested first. -/
def aluResult (d : IDEX) : OrDC Word :=
  match d.ctl.aluOp, d.readReg1Value, aluOperandB d with
  | some op, some a, some b => alu op (fieldsOf d.iw).funct a b
  | _, _, _ => DC

end Sys2Proof.Machine
end

