-- ==== Sys2Proof/Machine/Stages.lean ====
section
/-! DEFINITION. The five stage functions and one clock cycle (40_pipeline.md R92 to R103). -/

namespace Sys2Proof.Machine

/-- Fetch (R92). It does not look at the word. The cycle driver guarantees `pc < N`. -/
def fetch (s : State) : State :=
  match s.stream[s.pc]? with
  | some w => (s.putIfid { iw := w }).advancePc
  | none => s

/-- Decode (R93 to R95), for the payload that the word in `IFID.read` gives; `miss` is the word of a decode-table miss,
which is raised (R161). -/
def decodeStage (payload : State → IDEX) (miss : Option Word) (s : State) : State :=
  match miss with
  | some w => (s.raise (.decodeMiss w)).putIdex (payload s)
  | none => s.putIdex (payload s)

/-- What execute writes to EXMEM (R98). -/
def executePayload (d : IDEX) : EXMEM :=
  { iw := d.iw, memRead := d.ctl.memRead, memWrite := d.ctl.memWrite, memToReg := d.ctl.memToReg,
    regWrite := d.ctl.regWrite, aluResult := aluResult d, storeValue := d.readReg2Value, writeReg := selectedWriteReg d }

/-- Execute (R96 to R98). -/
def execute (s : State) : State := s.putExmem (executePayload s.idex.read)

/-- What memory-access writes to MEMWB, for the `LoadedValue` and `RegWrite'` of R99. -/
def accessPayload (e : EXMEM) (loaded : OrDC Byte) (regWrite : Bool) : MEMWB :=
  { iw := e.iw, memToReg := e.memToReg, regWrite := regWrite, loadedValue := loaded, aluResult := e.aluResult,
    writeReg := e.writeReg }

/-- The load branch of R99. Out of range: the error is raised, nothing is read, and the register write is squashed
(R162, D6). -/
def loadByte (ea : Word) (s : State) : State :=
  let e := s.exmem.read
  match s.memRead ea with
  | some b => s.putMemwb (accessPayload e (some b) e.regWrite)
  | none => (s.raise (.addressOutOfRange ea)).putMemwb (accessPayload e DC false)

/-- The store branch of R99. Out of range: the error is raised and no cell changes (R162). -/
def storeByte (ea : Word) (s : State) : Host.Outcome State Fault Refusal :=
  let e := s.exmem.read
  if s.InRange ea then
    match e.storeValue with
    | some v =>
      match s.memWrite ea v with
      | some s' => .next (s'.putMemwb (accessPayload e DC e.regWrite))
      | none => .next ((s.raise (.addressOutOfRange ea)).putMemwb (accessPayload e DC e.regWrite))
    | none => .refused (.dontCareRead .storeValue)
  else .next ((s.raise (.addressOutOfRange ea)).putMemwb (accessPayload e DC e.regWrite))

/-- Memory-access (R99). -/
def memoryAccess (s : State) : Host.Outcome State Fault Refusal :=
  let e := s.exmem.read
  if e.memRead then
    match e.aluResult with
    | some ea => .next (loadByte ea s)
    | none => .refused (.dontCareRead .address)
  else if e.memWrite then
    match e.aluResult with
    | some ea => storeByte ea s
    | none => .refused (.dontCareRead .address)
  else .next (s.putMemwb (accessPayload e DC e.regWrite))

/-- Write-back (R100). "This is the only stage that mutates RegisterFile." -/
def writeBack (s : State) : Host.Outcome State Fault Refusal :=
  let w := s.memwb.read
  if w.regWrite then
    match w.memToReg, w.writeReg with
    | some true, some r =>
      match w.loadedValue with
      | some b => .next (s.setReg r (zext32 b))
      | none => .refused (.dontCareRead .writeBackValue)
    | some false, some r =>
      match w.aluResult with
      | some v => .next (s.setReg r v)
      | none => .refused (.dontCareRead .writeBackValue)
    | none, _ => .refused (.dontCareRead .memToReg)
    | _, none => .refused (.dontCareRead .writeReg)
  else .next s

/-- The five stage functions of one cycle, in the order of R101, before the latch copy. The word in memory-access was
fetched two cycles before the word in decode (R26, R161, R162), and not three as a remark of R166 has it: the spec
conflicts with itself there (DEDUCED, log 17). -/
def runStages (payload : State → IDEX) (miss : Option Word) (s : State) : Host.Outcome State Fault Refusal :=
  andThen (memoryAccess (execute (decodeStage payload miss (fetch s)))) writeBack

/-- One clock cycle (R101, R102), run while the fetch index is within the stream; when it is not, the run has ended and
nothing more happens (R103; DEDUCED, log 4). -/
def clockCycle (payload : State → IDEX) (miss : Option Word) (s : State) : Host.Outcome State Fault Refusal :=
  if s.pc < s.stream.length then andThen (runStages payload miss s) (fun t => .next t.latchCopy) else .next s

end Sys2Proof.Machine
end

