-- ==== Sys2Proof/Machine/Arith.lean ====
section
/-! DEFINITION. The arithmetic instructions (41_arith.md). A meaning is the clock cycle whose decode stage holds the
instruction: decode starts it, and the stage functions of Stages.lean finish it in the next three cycles (log 3). -/

namespace Sys2Proof.Machine

/-- `add $rd, $rs, $rt` (R130). -/
def execAdd (rs rt rd : RegIdx) (shamt : BitVec 5) (s : State) : Host.Outcome State Fault Refusal :=
  clockCycle (rShapePayload (encode (.add rs rt rd shamt)) Control.arith rs rt rd) none s

/-- `sub $rd, $rs, $rt` (R131). -/
def execSub (rs rt rd : RegIdx) (shamt : BitVec 5) (s : State) : Host.Outcome State Fault Refusal :=
  clockCycle (rShapePayload (encode (.sub rs rt rd shamt)) Control.arith rs rt rd) none s

end Sys2Proof.Machine
end

