-- ==== Sys2Proof/Machine/LoadStore.lean ====
section
/-! DEFINITION. The load and store instructions (42_loadstore.md). A meaning is the clock cycle whose decode stage holds
the instruction: decode starts it, and the stage functions of Stages.lean finish it in the next three cycles (log 3). -/

namespace Sys2Proof.Machine

/-- `lb $rt, imm($rs)` (R140). -/
def execLb (rs rt : RegIdx) (imm : Imm16) (s : State) : Host.Outcome State Fault Refusal :=
  clockCycle (iShapePayload (encode (.lb rs rt imm)) Control.load rs rt imm) none s

/-- `sb $rt, imm($rs)` (R141). -/
def execSb (rs rt : RegIdx) (imm : Imm16) (s : State) : Host.Outcome State Fault Refusal :=
  clockCycle (iShapePayload (encode (.sb rs rt imm)) Control.store rs rt imm) none s

end Sys2Proof.Machine
end

