-- ==== Sys2Proof/Machine/NoOp.lean ====
section
/-! DEFINITION. The no-op, and the cycle in which an unsupported word is decoded (43_noop_unsupported.md). -/

namespace Sys2Proof.Machine

/-- `nop` (R150, R94): the cycle whose decode stage holds the NOOP word. -/
def execNop (s : State) : Host.Outcome State Fault Refusal := clockCycle noopPayload none s

/-- An unsupported word (R153, R95): the cycle whose decode stage holds it. DecodeMiss is raised and the word becomes a
bubble. -/
def missCycle (w : Word) (s : State) : Host.Outcome State Fault Refusal := clockCycle (bubblePayload w) (some w) s

end Sys2Proof.Machine
end

