-- ==== Sys2Proof/Machine/Dispatch.lean ====
section
/-! DEFINITION. One arm per instruction: the clock cycle in which the decode stage holds it (log 3). -/

namespace Sys2Proof.Machine

def exec (i : Instr) (s : State) : Host.Outcome State Fault Refusal :=
  match i with
  | .nop => Sys2Proof.Machine.execNop s
  | .add rs rt rd shamt => Sys2Proof.Machine.execAdd rs rt rd shamt s
  | .sub rs rt rd shamt => Sys2Proof.Machine.execSub rs rt rd shamt s
  | .lb rs rt imm => Sys2Proof.Machine.execLb rs rt imm s
  | .sb rs rt imm => Sys2Proof.Machine.execSb rs rt imm s

end Sys2Proof.Machine
end

