-- ==== Sys2Proof/Machine/Invariant.lean ====
section
/-! DEFINITION. The invariants of the latch contents of R108, and the states a run can be in. -/

namespace Sys2Proof.Machine

/-- A field holds a value and not `DC`. -/
abbrev HasValue {α : Type} (f : OrDC α) : Prop := f.isSome = true

/-- The word is an `add` or a `sub` (R108 b). -/
abbrev IsArithWord (w : Word) : Prop :=
  w ≠ Word.noop ∧ (fieldsOf w).opcode = opcodeR ∧ ((fieldsOf w).funct = functAdd ∨ (fieldsOf w).funct = functSub)

/-- R108 (a), (b) and (e) for one side of IDEX. That the three enables are never `DC` is in their types. -/
abbrev IDEX.Ok (d : IDEX) : Prop :=
  ¬(d.ctl.memRead = true ∧ d.ctl.memWrite = true) ∧
  (d.ctl.aluOp = some .byFunct →
    IsArithWord d.iw ∧ d.ctl.aluSrc = some false ∧ HasValue d.readReg1Value ∧ HasValue d.readReg2Value) ∧
  (d.ctl.aluOp = some .add → d.ctl.aluSrc = some true ∧ HasValue d.offset ∧ HasValue d.readReg1Value) ∧
  (d.ctl.regWrite = true → HasValue d.ctl.regDst ∧ HasValue (selectedWriteReg d)) ∧
  (d.iw = Word.noop → d = IDEX.noop)

/-- R108 (a), (c) and (e) for one side of EXMEM. -/
abbrev EXMEM.Ok (e : EXMEM) : Prop :=
  ¬(e.memRead = true ∧ e.memWrite = true) ∧
  (e.memRead = true ∨ e.memWrite = true → HasValue e.aluResult) ∧
  (e.memWrite = true → HasValue e.storeValue) ∧
  (e.regWrite = true → HasValue e.writeReg ∧ HasValue e.memToReg) ∧
  (e.regWrite = true → e.memToReg = some false → HasValue e.aluResult) ∧
  (e.regWrite = true → e.memToReg = some true → e.memRead = true) ∧
  (e.iw = Word.noop → e = EXMEM.noop)

/-- R108 (a), (d) and (e) for one side of MEMWB. -/
abbrev MEMWB.Ok (m : MEMWB) : Prop :=
  (m.regWrite = true → HasValue m.writeReg ∧ HasValue m.memToReg) ∧
  (m.regWrite = true → m.memToReg = some true → HasValue m.loadedValue) ∧
  (m.regWrite = true → m.memToReg = some false → HasValue m.aluResult) ∧
  (m.iw = Word.noop → m = MEMWB.noop)

/-- R108 for both sides of every latch. IFID holds the word alone, so R108 says nothing of it. -/
abbrev State.LatchesOk (s : State) : Prop :=
  IDEX.Ok s.idex.write ∧ IDEX.Ok s.idex.read ∧ EXMEM.Ok s.exmem.write ∧ EXMEM.Ok s.exmem.read ∧
  MEMWB.Ok s.memwb.write ∧ MEMWB.Ok s.memwb.read

/-- What R108 leaves unsaid of IDEX and execute relies on: an access has an address, a store has a value, and a
register write has a source. DEDUCED from the rows of R90 (log 7): without it R108 is not kept by every cycle. -/
abbrev IDEX.Feeds (d : IDEX) : Prop :=
  (d.ctl.memRead = true ∨ d.ctl.memWrite = true → d.ctl.aluOp = some .add) ∧
  (d.ctl.memWrite = true → HasValue d.readReg2Value) ∧
  (d.ctl.regWrite = true → HasValue d.ctl.memToReg) ∧
  (d.ctl.regWrite = true → d.ctl.memToReg = some false → HasValue d.ctl.aluOp) ∧
  (d.ctl.regWrite = true → d.ctl.memToReg = some true → d.ctl.memRead = true)

/-- The parameters and main memory are as R7, R25 and R50 say: `MEM_SIZE` is admitted, `pc <= N`, memory has its
canonical form and lists no address at or above `MEM_SIZE`. -/
abbrev State.StoresOk (s : State) : Prop :=
  MemSizeOk s.memSize ∧ s.pc ≤ s.stream.length ∧ s.mem.wf ∧ ∀ p ∈ s.mem, p.1 < s.memSize

/-- The launch states R43 admits: every field in its range, and R108; with memory in the model's canonical form (log 12). -/
abbrev State.Admitted (s : State) : Prop := s.StoresOk ∧ s.LatchesOk

/-- The invariant that every cycle keeps: an admitted state whose IDEX sides also meet `IDEX.Feeds`. -/
abbrev State.Inv (s : State) : Prop := s.Admitted ∧ IDEX.Feeds s.idex.write ∧ IDEX.Feeds s.idex.read

end Sys2Proof.Machine
end

