-- ==== Sys2Proof/Machine/Driver.lean ====
section
/-! DEFINITION. The cycle driver (R101, R103), the launch of a run (R43), the per-cycle snapshot (R41) and the condition
of the end state (R163). -/

namespace Sys2Proof.Machine

/-- One tick of the cycle driver: the clock cycle of the word the decode stage holds, an instruction or an unsupported
word. -/
def cycleDriver (s : State) : Host.Outcome State Fault Refusal :=
  match decode s.ifid.read.iw with
  | .instr i => exec i s
  | .decodeMiss w => missCycle w s

/-- `k` ticks of the cycle driver. -/
def cycles : Nat → State → Host.Outcome State Fault Refusal
  | 0, s => .next s
  | k + 1, s => andThen (cycleDriver s) (cycles k)

/-- The check of R43 as a Bool, one clause after the other; it answers true exactly for the states of `State.Admitted`
(`Laws.admittedCheck_iff`). -/
def State.admittedCheck (s : State) : Bool :=
  decide s.StoresOk && decide (IDEX.Ok s.idex.write) && decide (IDEX.Ok s.idex.read) && decide (EXMEM.Ok s.exmem.write)
    && decide (EXMEM.Ok s.exmem.read) && decide (MEMWB.Ok s.memwb.write) && decide (MEMWB.Ok s.memwb.read)

/-- Start a run from a launch state that the host supplies; one that R43 does not admit is refused (D15, U7; log 11).
R43 is silent on the launch state's cycle count, error report, fault bit and fetch index: `launch` admits any (an index up
to `N`) and keeps them, and the run goes on numbering its cycles from there. DESIGN CHOICE, safe (log 18). -/
def launch (s : State) : Host.Outcome State Fault Refusal :=
  if s.admittedCheck then .next s else .refused .launchNotAdmitted

/-- A whole run: launch, then one cycle for each word of the stream from the fetch index on, without drain (R103, R110). -/
def run (s : State) : Host.Outcome State Fault Refusal := andThen (launch s) (cycles (s.stream.length - s.pc))

/-- The per-cycle snapshot of R41: all registers and both sides of each latch; the spec adds `Err[c]` and main memory. -/
structure Snapshot where
  regs  : Vector Word 32
  ifid  : Latch IFID
  idex  : Latch IDEX
  exmem : Latch EXMEM
  memwb : Latch MEMWB
  err   : List Error
  mem   : Memory
deriving DecidableEq, Repr

/-- `Snapshot(c)` read off the state that the five stage functions of cycle `c` leave, before the latch copy (R41, D10). -/
def Snapshot.ofStages (s : State) : Snapshot :=
  { regs := s.regs, ifid := s.ifid, idex := s.idex, exmem := s.exmem, memwb := s.memwb, err := s.errAt (s.cycle + 1),
    mem := s.mem }

/-- The snapshot of the cycle that leads from `s` to `t`: only the latch copy writes the read sides (R32), so they are
those of `s`, and the copy leaves everything else as the stage functions left it (R38; log 13). -/
def Snapshot.between (s t : State) : Snapshot :=
  { regs := t.regs, ifid := ⟨t.ifid.write, s.ifid.read⟩, idex := ⟨t.idex.write, s.idex.read⟩,
    exmem := ⟨t.exmem.write, s.exmem.read⟩, memwb := ⟨t.memwb.write, s.memwb.read⟩, err := t.errAt (s.cycle + 1),
    mem := t.mem }

/-- The snapshot that the cycle starting in `s` exposes; none when the run has ended or the cycle is refused. -/
def cycleSnapshot (s : State) : Option Snapshot :=
  if s.pc < s.stream.length then
    match cycleDriver s with
    | .next t => some (Snapshot.between s t)
    | .fault _ => none
    | .refused _ => none
  else none

/-- The run has ended: all stream entries have been fetched (R103). -/
abbrev State.Ended (s : State) : Prop := s.stream.length ≤ s.pc

/-- StreamExhaustedMidFlight of R163: at the end of a run some latch `read` side holds a word that is not zero. It is
recorded nowhere and changes no state. -/
abbrev State.StreamExhaustedMidFlight (s : State) : Prop :=
  s.Ended ∧ (s.ifid.read.iw ≠ Word.noop ∨ s.idex.read.iw ≠ Word.noop ∨ s.exmem.read.iw ≠ Word.noop ∨
    s.memwb.read.iw ≠ Word.noop)

/-- The state whose decode stage holds `w` and whose stream still has a word to fetch, so that the next tick runs `w`
(log 3). A stream that has ended gets no-op words up to the fetch index. -/
def State.withWordInDecode (s : State) (w : Word) : State :=
  { s with
    ifid := { s.ifid with read := { iw := w } }
    stream := s.stream ++ List.replicate (s.pc + 1 - s.stream.length) Word.noop }

end Sys2Proof.Machine
end

