-- ==== Sys2Proof/Machine/Step.lean ====
section
/-! DEFINITION. One step: one tick of the cycle driver. -/

namespace Sys2Proof.Machine

/-- One clock cycle, from one latch copy to the next (R101, R109). -/
def step (s : State) : Host.Outcome State Fault Refusal := Sys2Proof.Machine.cycleDriver s

/-- `s` with the instruction of `nbits` bits `w` where the next step takes the instruction it runs: the word the decode
stage holds (log 3). -/
def State.withFetchWord (s : State) (nbits w : Nat) : State := s.withWordInDecode (tableWord nbits w)

end Sys2Proof.Machine
end

