-- ==== Sys2Proof/Safety.lean ====
section
/-! DEFINITION. The terms claims are stated in: what a safe run is, the synchronous reading of a cycle (R104), and the
program-order reading of a run (R107, R200). Each is written from its own rule and not from the stage functions. -/

namespace Sys2Proof.Safety

open Sys2Proof.Machine

/-! ## Runs -/

/-- A state of a run in which no error has been reported (R40, R200). -/
abbrev FaultFree (s : State) : Prop := s.fault = false

/-- `k` steps lead from `s` to `t`, each answering a next state (`Laws.steps_iff_run`: the run of the host's interface). -/
def Steps : Nat → State → State → Prop
  | 0, s, t => s = t
  | k + 1, s, t => ∃ m, step s = .next m ∧ Steps k m t

/-- Every latch side holds its NOOP payload, as at reset (R39). -/
abbrev AllNoop (s : State) : Prop :=
  s.ifid = ⟨IFID.noop, IFID.noop⟩ ∧ s.idex = ⟨IDEX.noop, IDEX.noop⟩ ∧ s.exmem = ⟨EXMEM.noop, EXMEM.noop⟩ ∧
  s.memwb = ⟨MEMWB.noop, MEMWB.noop⟩

/-- The word fetched `j` cycles ago: `IStream[pc - j]`, or the reset content of a stage where there is none (R26). -/
def fetchedBefore (s : State) (j : Nat) : Word :=
  if j ≤ s.pc then s.stream.getD (s.pc - j) Word.noop else Word.noop

/-- R26 and R105: the stages hold the words of the stream, one position apart. -/
abbrev TracksStream (s : State) : Prop :=
  s.ifid.read.iw = fetchedBefore s 1 ∧ s.idex.read.iw = fetchedBefore s 2 ∧ s.exmem.read.iw = fetchedBefore s 3 ∧
  s.memwb.read.iw = fetchedBefore s 4

/-- Every entry of the error report is of a cycle that has run (R40). -/
abbrev ErrorsDated (s : State) : Prop := ∀ p ∈ s.err, p.1 ≤ s.cycle

/-- The cycle from `s` to `t` raises nothing but a DecodeMiss: no access of it is out of range (R162). -/
abbrev NoAccessError (s t : State) : Prop :=
  ∀ p ∈ t.err, p ∈ s.err ∨ ∃ w, p = (s.cycle + 1, Error.decodeMiss w)

/-! ## The synchronous reading of a cycle (R104) -/

/-- The register write that a MEMWB payload stands for: destination and value (R100). -/
def registerWrite (m : MEMWB) : Option (RegIdx × Word) :=
  if m.regWrite = true then
    match m.writeReg, (if m.memToReg = some true then m.loadedValue.map (fun b => b.setWidth 32) else m.aluResult) with
    | some r, some v => some (r, v)
    | _, _ => none
  else none

/-- A register file after an optional write. -/
def applyWrite (regs : Vector Word 32) : Option (RegIdx × Word) → Vector Word 32
  | some (r, v) => regs.set r.toNat v r.isLt
  | none => regs

/-- The memory that memory-access leaves (R99): changed by an in-range store only. -/
def memoryAfter (memSize : Nat) (mem : Memory) (e : EXMEM) : Memory :=
  match e.memRead, e.memWrite, e.aluResult, e.storeValue with
  | false, true, some ea, some v => if ea.toNat < memSize then mem.write ea.toNat (v.setWidth 8) else mem
  | _, _, _, _ => mem

/-- The errors that memory-access raises (R99, R162). -/
def accessErrors (memSize : Nat) (e : EXMEM) : List Error :=
  match e.aluResult with
  | some ea => if (e.memRead = true ∨ e.memWrite = true) ∧ memSize ≤ ea.toNat then [.addressOutOfRange ea] else []
  | none => []

/-- What memory-access hands to write-back (R99). -/
def accessResult (memSize : Nat) (mem : Memory) (e : EXMEM) : MEMWB where
  iw          := e.iw
  memToReg    := e.memToReg
  regWrite    := e.regWrite && !(e.memRead && !(accessErrors memSize e).isEmpty)
  loadedValue :=
    match e.memRead, e.aluResult with
    | true, some ea => if ea.toNat < memSize then some (mem.read ea.toNat) else DC
    | _, _ => DC
  aluResult   := e.aluResult
  writeReg    := e.writeReg

/-- One cycle as a synchronous update (R104): every stage reads the state as it was at the start of the cycle, all writes
take effect together at the clock edge, and the read sides take the write sides' values. `w` is the fetched word, `p`
what decode writes, `missed` the error decode raises. -/
def synchronous (w : Word) (p : IDEX) (missed : List Error) (s : State) : State :=
  let raised := missed ++ accessErrors s.memSize s.exmem.read
  { regs    := applyWrite s.regs (registerWrite s.memwb.read)
    pc      := s.pc + 1
    stream  := s.stream
    memSize := s.memSize
    mem     := memoryAfter s.memSize s.mem s.exmem.read
    ifid    := ⟨{ iw := w }, { iw := w }⟩
    idex    := ⟨p, p⟩
    exmem   := ⟨executePayload s.idex.read, executePayload s.idex.read⟩
    memwb   := ⟨accessResult s.memSize s.mem s.exmem.read, accessResult s.memSize s.mem s.exmem.read⟩
    cycle   := s.cycle + 1
    err     := s.err ++ raised.map (fun e => (s.cycle + 1, e))
    fault   := s.fault || !raised.isEmpty }

/-! ## The program-order reading of a run (R107, R200) -/

/-- The registers and the main memory a program computes on. -/
structure Arch where
  regs : Vector Word 32
  mem  : Memory
deriving DecidableEq, Repr

/-- `x[r]` of a register file. -/
def regOf (regs : Vector Word 32) (r : RegIdx) : Word := regs[r.toNat]'r.isLt

/-- The effective address of R142 from a register file. -/
def addressOf (regs : Vector Word 32) (rs : RegIdx) (imm : Imm16) : Word := regOf regs rs + imm.signExtend 32

/-- The register write of an instruction that reads its operands from `regs` and memory from `mem` (R130, R131, R140). -/
def writeOf (memSize : Nat) (i : Instr) (a : Arch) : Option (RegIdx × Word) :=
  match i with
  | .nop => none
  | .add rs rt rd _ => some (rd, regOf a.regs rs + regOf a.regs rt)
  | .sub rs rt rd _ => some (rd, regOf a.regs rs - regOf a.regs rt)
  | .lb rs rt imm =>
    let ea := addressOf a.regs rs imm
    if ea.toNat < memSize then some (rt, (a.mem.read ea.toNat).setWidth 32) else none
  | .sb _ _ _ => none

/-- The memory after an instruction that reads its operands from `regs` (R141). -/
def storeOf (memSize : Nat) (i : Instr) (a : Arch) : Memory :=
  match i with
  | .nop => a.mem
  | .add _ _ _ _ => a.mem
  | .sub _ _ _ _ => a.mem
  | .lb _ _ _ => a.mem
  | .sb rs rt imm =>
    let ea := addressOf a.regs rs imm
    if ea.toNat < memSize then a.mem.write ea.toNat ((regOf a.regs rt).setWidth 8) else a.mem

/-- The instruction a word runs as: an unsupported word runs as a `nop` on registers and memory (R153). -/
def runsAs (w : Word) : Instr :=
  match decode w with
  | .instr i => i
  | .decodeMiss _ => .nop

/-- The sequential machine: one instruction to completion (R200). -/
def sequentialStep (memSize : Nat) (a : Arch) (i : Instr) : Arch :=
  { regs := applyWrite a.regs (writeOf memSize i a), mem := storeOf memSize i a }

/-- The program-order machine of R107: the register file that the next word's decode reads, the memory that the next
word's access acts on, and the register writes of the three words before it that are not yet committed, oldest first. -/
structure Queued where
  arch   : Arch
  oldest : Option (RegIdx × Word)
  middle : Option (RegIdx × Word)
  newest : Option (RegIdx × Word)
deriving DecidableEq, Repr

/-- One word of R107: read the registers, compute, perform the memory access, queue the register write; then commit the
write of the word three positions earlier, which is the first thing R107 does for the next word. -/
def queuedStep (memSize : Nat) (q : Queued) (i : Instr) : Queued where
  arch   := { regs := applyWrite q.arch.regs q.oldest, mem := storeOf memSize i q.arch }
  oldest := q.middle
  middle := q.newest
  newest := writeOf memSize i q.arch

/-- The program-order view of a pipeline state: the accesses of the two words between decode and memory-access are
performed, and the writes of the three words behind decode are queued (R107). -/
def queuedView (s : State) : Queued :=
  let inAccess := s.exmem.read
  let inExecute := executePayload s.idex.read
  let mem := memoryAfter s.memSize s.mem inAccess
  { arch   := { regs := s.regs, mem := memoryAfter s.memSize mem inExecute }
    oldest := registerWrite s.memwb.read
    middle := registerWrite (accessResult s.memSize s.mem inAccess)
    newest := registerWrite (accessResult s.memSize mem inExecute) }

/-- The queued writes all committed, oldest first. -/
def Queued.flush (q : Queued) : Arch :=
  { q.arch with regs := applyWrite (applyWrite (applyWrite q.arch.regs q.oldest) q.middle) q.newest }

/-- The registers whose values the result of an instruction depends on. `lb` also reads `x[rt]`, which nothing uses. -/
def sources : Instr → List RegIdx
  | .nop => []
  | .add rs rt _ _ => [rs, rt]
  | .sub rs rt _ _ => [rs, rt]
  | .lb rs _ _ => [rs]
  | .sb rs rt _ => [rs, rt]

/-- The register an instruction writes (R22). -/
def destination : Instr → Option RegIdx
  | .nop => none
  | .add _ _ rd _ => some rd
  | .sub _ _ rd _ => some rd
  | .lb _ rt _ => some rt
  | .sb _ _ _ => none

/-- The instruction reads no register that a queued write will still change (R194). -/
abbrev NoPendingSource (q : Queued) (i : Instr) : Prop :=
  ∀ r ∈ sources i, q.oldest.map Prod.fst ≠ some r ∧ q.middle.map Prod.fst ≠ some r ∧ q.newest.map Prod.fst ≠ some r

/-- A hazard-safe stream: every consumer of a register stands at least four positions after its producer (R194, R200). -/
abbrev HazardSafe (p : List Instr) : Prop :=
  ∀ j i, i < j → j < i + 4 → ∀ r ∈ sources (p.getD j .nop), destination (p.getD i .nop) ≠ some r

/-- The effective address of a memory instruction. -/
def accessAddress (i : Instr) (a : Arch) : Option Word :=
  match i with
  | .nop => none
  | .add _ _ _ _ => none
  | .sub _ _ _ _ => none
  | .lb rs _ imm => some (addressOf a.regs rs imm)
  | .sb rs _ imm => some (addressOf a.regs rs imm)

/-- Executed one instruction at a time, the stream keeps every effective address below `MEM_SIZE` (R200). -/
def AddressesInRange (memSize : Nat) : List Instr → Arch → Prop
  | [], _ => True
  | i :: p, a => (∀ ea, accessAddress i a = some ea → ea.toNat < memSize) ∧
      AddressesInRange memSize p (sequentialStep memSize a i)

end Sys2Proof.Safety
end

