-- ==== Sys2Proof/Certificates/Slice0/Obligations.lean ====
section
/-! DEFINITION. The statements for the provers, by the rules of spec/. A statement about a cycle is about `exec` or
`step`; a statement about an instruction's whole passage is about the four cycles from its decode to its write-back. -/

open Sys2Proof Sys2Proof.Machine Sys2Proof.Safety

/-! ## Encoding (30_encoding.md) -/

/-- R83: the worked encodings, each with the seven fields of its word. -/
def Obligations.WorkedEncodings : Prop :=
  (decode 0xA1020000 = .instr (.sb 8 2 0) ∧ encode (.sb 8 2 0) = 0xA1020000 ∧
    fieldsOf 0xA1020000 = ⟨0x28, 8, 2, 0, 0, 0x00, 0⟩) ∧
  (decode 0x810AFFFC = .instr (.lb 8 10 (-4)) ∧ encode (.lb 8 10 (-4)) = 0x810AFFFC ∧
    fieldsOf 0x810AFFFC = ⟨0x20, 8, 10, 31, 31, 0x3C, -4⟩) ∧
  (decode 0x00430820 = .instr (.add 2 3 1 0) ∧ encode (.add 2 3 1 0) = 0x00430820 ∧
    fieldsOf 0x00430820 = ⟨0x00, 2, 3, 1, 0, 0x20, 2080⟩) ∧
  (decode 0x00222022 = .instr (.sub 1 2 4 0) ∧ encode (.sub 1 2 4 0) = 0x00222022 ∧
    fieldsOf 0x00222022 = ⟨0x00, 1, 2, 4, 0, 0x22, 8226⟩) ∧
  (decode 0x00000020 = .instr (.add 0 0 0 0) ∧ encode (.add 0 0 0 0) = 0x00000020 ∧
    fieldsOf 0x00000020 = ⟨0x00, 0, 0, 0, 0, 0x20, 32⟩) ∧
  (decode 0x00000000 = .instr .nop ∧ encode .nop = 0x00000000 ∧ fieldsOf 0x00000000 = ⟨0x00, 0, 0, 0, 0, 0x00, 0⟩)

/-- R71: each of the seven fields is its slice of the word, and the immediate is the low 16 bits read as signed. -/
def Obligations.FieldsAreSlicesOfTheWord : Prop :=
  ∀ w : Word,
    (fieldsOf w).opcode.toNat = w.toNat / 2 ^ 26 % 2 ^ 6 ∧ (fieldsOf w).rs.toNat = w.toNat / 2 ^ 21 % 2 ^ 5 ∧
    (fieldsOf w).rt.toNat = w.toNat / 2 ^ 16 % 2 ^ 5 ∧ (fieldsOf w).rd.toNat = w.toNat / 2 ^ 11 % 2 ^ 5 ∧
    (fieldsOf w).shamt.toNat = w.toNat / 2 ^ 6 % 2 ^ 5 ∧ (fieldsOf w).funct.toNat = w.toNat % 2 ^ 6 ∧
    (fieldsOf w).immediate.toInt =
      if w.toNat % 2 ^ 16 < 2 ^ 15 then (w.toNat % 2 ^ 16 : Int) else (w.toNat % 2 ^ 16 : Int) - 65536

/-- R82: the fields of an `add` word come back from its re-encoding, and the fields of any word rebuild it. -/
def Obligations.FieldsRebuildTheWord : Prop :=
  (∀ rs rt rd shamt : BitVec 5,
    let f := fieldsOf (rs.setWidth 32 <<< 21 ||| rt.setWidth 32 <<< 16 ||| rd.setWidth 32 <<< 11 |||
      shamt.setWidth 32 <<< 6 ||| 0x20#32)
    f.rs = rs ∧ f.rt = rt ∧ f.rd = rd ∧ f.shamt = shamt ∧ f.funct = 0x20) ∧
  (∀ w : Word,
    let f := fieldsOf w
    f.opcode.setWidth 32 <<< 26 ||| f.rs.setWidth 32 <<< 21 ||| f.rt.setWidth 32 <<< 16 ||| f.rd.setWidth 32 <<< 11 |||
      f.shamt.setWidth 32 <<< 6 ||| f.funct.setWidth 32 = w ∧
    f.opcode.setWidth 32 <<< 26 ||| f.rs.setWidth 32 <<< 21 ||| f.rt.setWidth 32 <<< 16 ||| f.immediate.setWidth 32 = w)

/-- The decoder reads back every instruction from its word, at every value of every operand (R72, R73, R75). -/
def Obligations.DecodeInvertsEncode : Prop :=
  ∀ i : Instr, i.WellFormed → decode (encode i) = .instr i

/-- The other direction: a word that decodes to an instruction is that instruction's word. -/
def Obligations.EncodeInvertsDecode : Prop :=
  ∀ (w : Word) (i : Instr), decode w = .instr i → encode i = w

/-- R75: the opcode map by mask and match, by the "selected when" column, and by the decoder; the rows are disjoint and
every other word is unsupported. -/
def Obligations.OpcodeMapByMaskAndMatch : Prop :=
  ∀ w : Word,
    let f := fieldsOf w
    (rowNop.Selects w ↔ w = 0) ∧ (rowNop.Selects w ↔ decode w = .instr .nop) ∧
    (rowAdd.Selects w ↔ f.opcode = 0x00 ∧ f.funct = 0x20) ∧
    (rowAdd.Selects w ↔ decode w = .instr (.add f.rs f.rt f.rd f.shamt)) ∧
    (rowSub.Selects w ↔ f.opcode = 0x00 ∧ f.funct = 0x22) ∧
    (rowSub.Selects w ↔ decode w = .instr (.sub f.rs f.rt f.rd f.shamt)) ∧
    (rowLb.Selects w ↔ f.opcode = 0x20) ∧ (rowLb.Selects w ↔ decode w = .instr (.lb f.rs f.rt f.immediate)) ∧
    (rowSb.Selects w ↔ f.opcode = 0x28) ∧ (rowSb.Selects w ↔ decode w = .instr (.sb f.rs f.rt f.immediate)) ∧
    opcodeMap.Pairwise (fun p q => ¬(p.Selects w ∧ q.Selects w)) ∧
    ((∀ row ∈ opcodeMap, ¬row.Selects w) ↔ decode w = .decodeMiss w)

/-- R76: NOOP is the whole zero word and no other; opcode 0 and funct 0 with any other bit set is unsupported; `0x00000020` is an
`add`. -/
def Obligations.NoopIsTheZeroWordOnly : Prop :=
  (∀ w : Word, decode w = .instr .nop ↔ w = 0) ∧ decode 0x00000020 = .instr (.add 0 0 0 0) ∧
  ∀ w : Word, (fieldsOf w).opcode = 0 → (fieldsOf w).funct = 0 → w ≠ 0 → decode w = .decodeMiss w

/-- Which words are unsupported (R78, first two sentences), and that the rejection names the word itself. -/
def Obligations.UnsupportedWordsAreNamed : Prop :=
  ∀ w : Word,
    (decode w = .decodeMiss w ↔
      w ≠ 0 ∧ ((fieldsOf w).opcode = 0x00 ∧ (fieldsOf w).funct ≠ 0x20 ∧ (fieldsOf w).funct ≠ 0x22 ∨
        (fieldsOf w).opcode ≠ 0x00 ∧ (fieldsOf w).opcode ≠ 0x20 ∧ (fieldsOf w).opcode ≠ 0x28)) ∧
    ∀ v : Word, decode w = .decodeMiss v → v = w

/-- `shamt` takes no part in `add` and `sub` (R77): while `pc < N`, the next states for two values of it differ in the
instruction word of IDEX alone, and execute computes the same from both. That exec answers a next state past the end of the
stream too is the stutter of log 4, the model's reading, and nothing is compared there. -/
def Obligations.ShamtTakesNoPart : Prop :=
  ∀ (s : State) (rs rt rd : RegIdx) (h h' : BitVec 5), s.LatchesOk →
    (∃ t t', exec (.add rs rt rd h) s = .next t ∧ exec (.add rs rt rd h') s = .next t' ∧
      (s.pc < s.stream.length →
        t' = { t with idex := ⟨{ t.idex.write with iw := encode (.add rs rt rd h') },
                               { t.idex.read with iw := encode (.add rs rt rd h') }⟩ } ∧
        executePayload t'.idex.read = { executePayload t.idex.read with iw := encode (.add rs rt rd h') })) ∧
    (∃ t t', exec (.sub rs rt rd h) s = .next t ∧ exec (.sub rs rt rd h') s = .next t' ∧
      (s.pc < s.stream.length →
        t' = { t with idex := ⟨{ t.idex.write with iw := encode (.sub rs rt rd h') },
                               { t.idex.read with iw := encode (.sub rs rt rd h') }⟩ } ∧
        executePayload t'.idex.read = { executePayload t.idex.read with iw := encode (.sub rs rt rd h') }))

/-! ## The control-signal table (R90, R91) -/

/-- R90: the table cell by cell, the NOOP vector, and no row for an unsupported word. -/
def Obligations.ControlTableRows : Prop :=
  (∀ rs rt rd shamt, controlSignals (encode (.add rs rt rd shamt)) =
    some ⟨some true, some false, some .byFunct, false, false, some false, true⟩) ∧
  (∀ rs rt rd shamt, controlSignals (encode (.sub rs rt rd shamt)) =
    some ⟨some true, some false, some .byFunct, false, false, some false, true⟩) ∧
  (∀ rs rt imm, controlSignals (encode (.lb rs rt imm)) =
    some ⟨some false, some true, some .add, true, false, some true, true⟩) ∧
  (∀ rs rt imm, controlSignals (encode (.sb rs rt imm)) =
    some ⟨none, some true, some .add, false, true, none, false⟩) ∧
  controlSignals 0x00000000 = some ⟨none, none, none, false, false, none, false⟩ ∧
  (∀ w, controlSignals w = none ↔ decode w = .decodeMiss w)

/-- R91: `MemRead` and `MemWrite` are never both set, and the further facts read off the table. -/
def Obligations.ControlTableFacts : Prop :=
  ∀ (w : Word) (i : Instr) (c : Control), decode w = .instr i → controlSignals w = some c →
    ¬(c.memRead = true ∧ c.memWrite = true) ∧
    (c.regWrite = true ↔
      (∃ rs rt rd h, i = .add rs rt rd h) ∨ (∃ rs rt rd h, i = .sub rs rt rd h) ∨ ∃ rs rt imm, i = .lb rs rt imm) ∧
    (c.memToReg = some true ↔ ∃ rs rt imm, i = .lb rs rt imm) ∧
    (c.aluOp = some .byFunct ↔ (∃ rs rt rd h, i = .add rs rt rd h) ∨ ∃ rs rt rd h, i = .sub rs rt rd h) ∧
    (c.regDst = none ↔ i = .nop ∨ ∃ rs rt imm, i = .sb rs rt imm) ∧
    (c.memToReg = none ↔ i = .nop ∨ ∃ rs rt imm, i = .sb rs rt imm) ∧
    (c.regWrite = true → c.regDst.isSome = true ∧ c.memToReg.isSome = true)

/-! ## The cycle in which a word is decoded: its whole next state (R93 to R95, R104) -/

/-- `nop` in decode (R94): the IDEX NOOP payload, every field of it, and no register is read. -/
def Obligations.NopDecodeCycle : Prop :=
  ∀ (s : State) (h : s.pc < s.stream.length), s.LatchesOk →
    exec .nop s = .next (synchronous s.stream[s.pc] IDEX.noop [] s)

/-- `add` in decode: the row of R90 and the operand snapshot of R93, with every other stage's work in the same cycle. -/
def Obligations.AddDecodeCycle : Prop :=
  ∀ (s : State) (rs rt rd : RegIdx) (shamt : BitVec 5) (h : s.pc < s.stream.length), s.LatchesOk →
    exec (.add rs rt rd shamt) s = .next (synchronous s.stream[s.pc]
      { iw := encode (.add rs rt rd shamt)
        ctl := ⟨some true, some false, some .byFunct, false, false, some false, true⟩
        readReg1Value := some (s.reg rs), readReg2Value := some (s.reg rt), offset := none
        writeRegA := some rt, writeRegB := some rd } [] s)

/-- `sub` in decode: the row of R90 and the operand snapshot of R93, with every other stage's work in the same cycle. -/
def Obligations.SubDecodeCycle : Prop :=
  ∀ (s : State) (rs rt rd : RegIdx) (shamt : BitVec 5) (h : s.pc < s.stream.length), s.LatchesOk →
    exec (.sub rs rt rd shamt) s = .next (synchronous s.stream[s.pc]
      { iw := encode (.sub rs rt rd shamt)
        ctl := ⟨some true, some false, some .byFunct, false, false, some false, true⟩
        readReg1Value := some (s.reg rs), readReg2Value := some (s.reg rt), offset := none
        writeRegA := some rt, writeRegB := some rd } [] s)

/-- `lb` in decode: the row of R90 and the operand snapshot of R93, with every other stage's work in the same cycle. -/
def Obligations.LbDecodeCycle : Prop :=
  ∀ (s : State) (rs rt : RegIdx) (imm : Imm16) (h : s.pc < s.stream.length), s.LatchesOk →
    exec (.lb rs rt imm) s = .next (synchronous s.stream[s.pc]
      { iw := encode (.lb rs rt imm)
        ctl := ⟨some false, some true, some .add, true, false, some true, true⟩
        readReg1Value := some (s.reg rs), readReg2Value := some (s.reg rt), offset := some imm
        writeRegA := some rt, writeRegB := some rs } [] s)

/-- `sb` in decode: the row of R90 and the operand snapshot of R93, with every other stage's work in the same cycle. -/
def Obligations.SbDecodeCycle : Prop :=
  ∀ (s : State) (rs rt : RegIdx) (imm : Imm16) (h : s.pc < s.stream.length), s.LatchesOk →
    exec (.sb rs rt imm) s = .next (synchronous s.stream[s.pc]
      { iw := encode (.sb rs rt imm)
        ctl := ⟨none, some true, some .add, false, true, none, false⟩
        readReg1Value := some (s.reg rs), readReg2Value := some (s.reg rt), offset := some imm
        writeRegA := some rt, writeRegB := some rs } [] s)

/-- An unsupported word in decode (R95): DecodeMiss is raised, and IDEX takes the NOOP payload but for the word. -/
def Obligations.UnsupportedDecodeCycle : Prop :=
  ∀ (s : State) (w : Word) (h : s.pc < s.stream.length), s.LatchesOk → s.ifid.read.iw = w → decode w = .decodeMiss w →
    step s = .next (synchronous s.stream[s.pc] { IDEX.noop with iw := w } [.decodeMiss w] s)

/-! ## A step runs the instruction in decode -/

/-- A step is `exec` of the instruction that the decode stage holds; the word it fetches meanwhile is the one the next
step runs (log 3: the model's choice of the instruction a step runs). -/
def Obligations.StepRunsTheDecodedInstruction : Prop :=
  (∀ (s : State) (i : Instr), decode s.ifid.read.iw = .instr i → step s = exec i s) ∧
  (∀ (s t : State) (i : Instr) (h : s.pc < s.stream.length), step s = .next t →
    decode s.stream[s.pc] = .instr i → step t = exec i t)

/-- A word placed for the next step runs in it, from any state (log 3: the model's choice of the place). -/
def Obligations.PlacedWordRunsNext : Prop :=
  ∀ (s : State) (i : Instr),
    let p := s.withFetchWord 32 (encode i).toNat
    p.pc < p.stream.length ∧ step p = exec i p ∧ decodeTableWord 32 (encode i).toNat = some i

/-! ## The stage functions, read off a step (R92, R96 to R102) -/

/-- R92: fetch takes the word at `pc`, whatever it is, and advances `pc` by one; it raises no error and changes nothing
else. -/
def Obligations.FetchTakesTheNextWord : Prop :=
  (∀ (s : State) (h : s.pc < s.stream.length),
    fetch s = { s with pc := s.pc + 1, ifid := ⟨{ iw := s.stream[s.pc] }, s.ifid.read⟩ }) ∧
  (∀ (s t : State) (h : s.pc < s.stream.length), step s = .next t →
    t.ifid.write.iw = s.stream[s.pc] ∧ t.pc = s.pc + 1)

/-- R97: the ALU result, with the sums and differences written modulo 2^32 on natural numbers. -/
def Obligations.AluResultRule : Prop :=
  ∀ d : IDEX,
    let A := d.readReg1Value
    let B : OrDC Word :=
      match d.ctl.aluSrc with
      | some false => d.readReg2Value
      | some true => d.offset.map (fun v => v.signExtend 32)
      | none => none
    ((d.ctl.aluOp = none ∨ A = none ∨ B = none) → (executePayload d).aluResult = none) ∧
    ∀ a b : Word, A = some a → B = some b →
      (d.ctl.aluOp = some .add →
        ∃ r, (executePayload d).aluResult = some r ∧ r.toNat = (a.toNat + b.toNat) % 2 ^ 32) ∧
      (d.ctl.aluOp = some .byFunct →
        (d.iw.toNat % 64 = 0x20 →
          ∃ r, (executePayload d).aluResult = some r ∧ r.toNat = (a.toNat + b.toNat) % 2 ^ 32) ∧
        (d.iw.toNat % 64 = 0x22 →
          ∃ r, (executePayload d).aluResult = some r ∧ (r.toNat : Int) = ((a.toNat : Int) - b.toNat) % 2 ^ 32) ∧
        (d.iw.toNat % 64 ≠ 0x20 → d.iw.toNat % 64 ≠ 0x22 → (executePayload d).aluResult = none))

/-- R98, with the destination of R96: what execute writes, in a step and by itself; it changes nothing else, and it turns
the NOOP payload into the NOOP payload. -/
def Obligations.ExecuteHandsOn : Prop :=
  (∀ s : State, execute s = { s with exmem := ⟨executePayload s.idex.read, s.exmem.read⟩ }) ∧
  executePayload IDEX.noop = EXMEM.noop ∧
  ∀ s t : State, s.pc < s.stream.length → step s = .next t →
    let d := s.idex.read
    let e := t.exmem.write
    e.iw = d.iw ∧ e.memRead = d.ctl.memRead ∧ e.memWrite = d.ctl.memWrite ∧ e.memToReg = d.ctl.memToReg ∧
    e.regWrite = d.ctl.regWrite ∧ e.storeValue = d.readReg2Value ∧ e.aluResult = (executePayload d).aluResult ∧
    (d.ctl.regDst = some false → e.writeReg = d.writeRegA) ∧ (d.ctl.regDst = some true → e.writeReg = d.writeRegB) ∧
    (d.ctl.regDst = none → e.writeReg = none)

/-- R142: the effective address is the base plus the signed displacement modulo 2^32, for the base and the immediate
that decode snapshots for `lb` and for `sb`, and the base register is not written by the address computation. -/
def Obligations.EffectiveAddressRule : Prop :=
  ∀ (s : State) (rs rt : RegIdx) (imm : Imm16) (c : Control) (iw : Word), c = Control.load ∨ c = Control.store →
    ∃ ea : Word, (executePayload (iShapePayload iw c rs rt imm s)).aluResult = some ea ∧
      (ea.toNat : Int) = ((s.reg rs).toNat + imm.toInt) % 2 ^ 32

/-- R99: memory-access on a load, on a store and on anything else: what MEMWB takes, and every byte of main memory. -/
def Obligations.MemoryAccessStage : Prop :=
  ∀ s t : State, s.pc < s.stream.length → s.LatchesOk → step s = .next t →
    let e := s.exmem.read
    let m := t.memwb.write
    (m.iw = e.iw ∧ m.memToReg = e.memToReg ∧ m.aluResult = e.aluResult ∧ m.writeReg = e.writeReg) ∧
    (e.memRead = true → ∃ ea, e.aluResult = some ea ∧ t.mem = s.mem ∧
      (ea.toNat < s.memSize →
        m.loadedValue = some (s.cell ea.toNat) ∧ m.regWrite = e.regWrite ∧ NoAccessError s t) ∧
      (s.memSize ≤ ea.toNat → m.loadedValue = none ∧ m.regWrite = false ∧ t.fault = true ∧
        (s.cycle + 1, Error.addressOutOfRange ea) ∈ t.err)) ∧
    (e.memRead = false → m.loadedValue = none ∧ m.regWrite = e.regWrite) ∧
    (e.memRead = false → e.memWrite = true → ∃ ea v, e.aluResult = some ea ∧ e.storeValue = some v ∧
      (ea.toNat < s.memSize →
        t.cell ea.toNat = v.setWidth 8 ∧ (∀ a, a ≠ ea.toNat → t.cell a = s.cell a) ∧ NoAccessError s t) ∧
      (s.memSize ≤ ea.toNat → t.mem = s.mem ∧ t.fault = true ∧ (s.cycle + 1, Error.addressOutOfRange ea) ∈ t.err)) ∧
    (e.memRead = false → e.memWrite = false → t.mem = s.mem ∧ NoAccessError s t)

/-- R100: write-back writes at most the one register, register 0 like any other, and every other register keeps its
value; it writes no latch and raises no error. -/
def Obligations.WriteBackStage : Prop :=
  (∀ s t : State, writeBack s = .next t → t = { s with regs := t.regs }) ∧
  ∀ s t : State, s.pc < s.stream.length → s.LatchesOk → step s = .next t →
    let w := s.memwb.read
    (w.regWrite = false → t.regs = s.regs) ∧
    (w.regWrite = true → ∃ r, w.writeReg = some r ∧ (∀ q, q ≠ r → t.reg q = s.reg q) ∧
      (w.memToReg = some true → ∃ b, w.loadedValue = some b ∧ (t.reg r).toNat = b.toNat) ∧
      (w.memToReg = some false → ∃ v, w.aluResult = some v ∧ t.reg r = v))

/-- R102: the latch copy gives every read side the write side's contents, keeps the write sides and everything else, and
is the last act of a cycle. -/
def Obligations.LatchCopyEndsTheCycle : Prop :=
  (∀ s : State, s.latchCopy = { s with
    ifid := ⟨s.ifid.write, s.ifid.write⟩, idex := ⟨s.idex.write, s.idex.write⟩,
    exmem := ⟨s.exmem.write, s.exmem.write⟩, memwb := ⟨s.memwb.write, s.memwb.write⟩, cycle := s.cycle + 1 }) ∧
  ∀ s t : State, s.pc < s.stream.length → step s = .next t →
    t.ifid.read = t.ifid.write ∧ t.idex.read = t.idex.write ∧ t.exmem.read = t.exmem.write ∧
    t.memwb.read = t.memwb.write ∧ t.cycle = s.cycle + 1

/-- A read in decode comes before the write-back of the same cycle, and the next cycle's decode sees the new value
(R22, R104): the first and the second source of each kind of reader. -/
def Obligations.DecodeReadsBeforeWriteBack : Prop :=
  ∀ (s t : State) (r : RegIdx) (v : Word) (i : Instr), s.pc < s.stream.length → step s = .next t →
    registerWrite s.memwb.read = some (r, v) → decode s.ifid.read.iw = .instr i → i ≠ .nop →
    ((fieldsOf s.ifid.read.iw).rs = r → t.idex.read.readReg1Value = some (s.reg r)) ∧
    ((fieldsOf s.ifid.read.iw).rt = r → t.idex.read.readReg2Value = some (s.reg r)) ∧
    t.reg r = v

/-! ## An instruction's passage through the pipeline (R105, R130 to R153) -/

/-- A word fetched in one cycle is in IFID, IDEX, EXMEM and MEMWB in the next four (R105). -/
def Obligations.FourCyclesOfLatency : Prop :=
  ∀ (s : State) (h : s.pc < s.stream.length), s.Inv → s.pc + 4 ≤ s.stream.length →
    ∃ t₁ t₂ t₃ t₄, Steps 1 s t₁ ∧ Steps 2 s t₂ ∧ Steps 3 s t₃ ∧ Steps 4 s t₄ ∧
      t₁.ifid.read.iw = s.stream[s.pc] ∧ t₂.idex.read.iw = s.stream[s.pc] ∧ t₃.exmem.read.iw = s.stream[s.pc] ∧
      t₄.memwb.read.iw = s.stream[s.pc]

/-- `add` (R130): no access in its third cycle, and the sum of the registers its decode read in `rd` after its fourth;
no other register changes in that cycle, and no form of `rd`, `rs`, `rt` is left out. -/
def Obligations.AddWritesTheSum : Prop :=
  ∀ (s : State) (rs rt rd : RegIdx) (shamt : BitVec 5), s.Inv → s.pc + 4 ≤ s.stream.length →
    ∃ t₁ t₂ t₃ t₄, exec (.add rs rt rd shamt) s = .next t₁ ∧ step t₁ = .next t₂ ∧ step t₂ = .next t₃ ∧ step t₃ = .next t₄ ∧
      NoAccessError t₂ t₃ ∧
      t₃.mem = t₂.mem ∧ t₃.memwb.read.loadedValue = none ∧
      (t₄.reg rd).toNat = ((s.reg rs).toNat + (s.reg rt).toNat) % 2 ^ 32 ∧ ∀ q, q ≠ rd → t₄.reg q = t₃.reg q

/-- `sub` (R131): no access in its third cycle, and the difference `rs` minus `rt` of the registers its decode read in
`rd` after its fourth; no other register changes in that cycle. -/
def Obligations.SubWritesTheDifference : Prop :=
  ∀ (s : State) (rs rt rd : RegIdx) (shamt : BitVec 5), s.Inv → s.pc + 4 ≤ s.stream.length →
    ∃ t₁ t₂ t₃ t₄, exec (.sub rs rt rd shamt) s = .next t₁ ∧ step t₁ = .next t₂ ∧ step t₂ = .next t₃ ∧ step t₃ = .next t₄ ∧
      NoAccessError t₂ t₃ ∧
      t₃.mem = t₂.mem ∧ t₃.memwb.read.loadedValue = none ∧
      ((t₄.reg rd).toNat : Int) = ((s.reg rs).toNat - (s.reg rt).toNat) % 2 ^ 32 ∧ ∀ q, q ≠ rd → t₄.reg q = t₃.reg q

/-- `lb` with its address in range (R140): `rt` takes the zero-extended byte that memory holds when its access is
performed; memory does not change in that cycle, and no other register in its write-back. -/
def Obligations.LbLoadsTheByte : Prop :=
  ∀ (s : State) (rs rt : RegIdx) (imm : Imm16), s.Inv → s.pc + 4 ≤ s.stream.length →
    (effectiveAddress (s.reg rs) imm).toNat < s.memSize →
    ∃ t₁ t₂ t₃ t₄, exec (.lb rs rt imm) s = .next t₁ ∧ step t₁ = .next t₂ ∧ step t₂ = .next t₃ ∧ step t₃ = .next t₄ ∧
      NoAccessError t₂ t₃ ∧
      t₃.mem = t₂.mem ∧
      (t₄.reg rt).toNat = (t₂.cell (effectiveAddress (s.reg rs) imm).toNat).toNat ∧
      ∀ q, q ≠ rt → t₄.reg q = t₃.reg q

/-- `lb` with its address out of range (R140, R162): the error is recorded for its third cycle, memory is not changed,
and no register, `rt` with them, is written in its fourth. -/
def Obligations.LbOutOfRange : Prop :=
  ∀ (s : State) (rs rt : RegIdx) (imm : Imm16), s.Inv → s.pc + 4 ≤ s.stream.length →
    s.memSize ≤ (effectiveAddress (s.reg rs) imm).toNat →
    ∃ t₁ t₂ t₃ t₄, exec (.lb rs rt imm) s = .next t₁ ∧ step t₁ = .next t₂ ∧ step t₂ = .next t₃ ∧ step t₃ = .next t₄ ∧
      t₃.mem = t₂.mem ∧ t₃.fault = true ∧
      Error.addressOutOfRange (effectiveAddress (s.reg rs) imm) ∈ t₃.errAt (s.cycle + 3) ∧ t₄.regs = t₃.regs

/-- `sb` with its address in range (R141): the low byte of `x[rt]` as its decode read it is at the effective address
after its third cycle, every other byte is unchanged in that cycle, and no register is written in its fourth. -/
def Obligations.SbStoresTheLowByte : Prop :=
  ∀ (s : State) (rs rt : RegIdx) (imm : Imm16), s.Inv → s.pc + 4 ≤ s.stream.length →
    (effectiveAddress (s.reg rs) imm).toNat < s.memSize →
    ∃ t₁ t₂ t₃ t₄, exec (.sb rs rt imm) s = .next t₁ ∧ step t₁ = .next t₂ ∧ step t₂ = .next t₃ ∧ step t₃ = .next t₄ ∧
      NoAccessError t₂ t₃ ∧
      (t₃.cell (effectiveAddress (s.reg rs) imm).toNat).toNat = (s.reg rt).toNat % 256 ∧
      (∀ a, a ≠ (effectiveAddress (s.reg rs) imm).toNat → t₃.cell a = t₂.cell a) ∧ t₄.regs = t₃.regs

/-- `sb` with its address out of range (R141, R162): the error is recorded for its third cycle and no byte of memory
changes. -/
def Obligations.SbOutOfRange : Prop :=
  ∀ (s : State) (rs rt : RegIdx) (imm : Imm16), s.Inv → s.pc + 4 ≤ s.stream.length →
    s.memSize ≤ (effectiveAddress (s.reg rs) imm).toNat →
    ∃ t₁ t₂ t₃ t₄, exec (.sb rs rt imm) s = .next t₁ ∧ step t₁ = .next t₂ ∧ step t₂ = .next t₃ ∧ step t₃ = .next t₄ ∧
      t₃.mem = t₂.mem ∧ t₃.fault = true ∧
      Error.addressOutOfRange (effectiveAddress (s.reg rs) imm) ∈ t₃.errAt (s.cycle + 3) ∧ t₄.regs = t₃.regs

/-- `nop` (R150): a NOOP payload in each latch on its way, no access and no register write, and no error of its own: in
its decode cycle the report grows by what the word in memory-access raises (R166) and by nothing else. -/
def Obligations.NopDoesNothing : Prop :=
  ∀ s : State, s.Inv → s.pc + 4 ≤ s.stream.length →
    ∃ t₁ t₂ t₃ t₄, exec .nop s = .next t₁ ∧ step t₁ = .next t₂ ∧ step t₂ = .next t₃ ∧ step t₃ = .next t₄ ∧
      NoAccessError t₂ t₃ ∧
      t₁.err = s.err ++ (accessErrors s.memSize s.exmem.read).map (fun e => (s.cycle + 1, e)) ∧
      t₁.idex.read = IDEX.noop ∧ t₂.exmem.read = EXMEM.noop ∧ t₃.memwb.read = MEMWB.noop ∧ t₃.mem = t₂.mem ∧
      t₄.regs = t₃.regs

/-- An unsupported word (R153): its decode cycle adds one DecodeMiss to the report, with the word, before what the word in
memory-access raises (R166) and nothing else; then a NOOP payload with the word is in each latch on its way, and there is
no access and no register write. -/
def Obligations.UnsupportedWordIsSkipped : Prop :=
  ∀ (s : State) (w : Word), s.Inv → s.ifid.read.iw = w → decode w = .decodeMiss w → s.pc + 4 ≤ s.stream.length →
    ∃ t₁ t₂ t₃ t₄, step s = .next t₁ ∧ step t₁ = .next t₂ ∧ step t₂ = .next t₃ ∧ step t₃ = .next t₄ ∧
      NoAccessError t₂ t₃ ∧
      t₁.fault = true ∧ Error.decodeMiss w ∈ t₁.errAt (s.cycle + 1) ∧
      t₁.err = s.err ++
        (Error.decodeMiss w :: accessErrors s.memSize s.exmem.read).map (fun e => (s.cycle + 1, e)) ∧
      t₁.idex.read = { IDEX.noop with iw := w } ∧ t₂.exmem.read = { EXMEM.noop with iw := w } ∧
      t₃.memwb.read = { MEMWB.noop with iw := w } ∧ t₃.mem = t₂.mem ∧ t₄.regs = t₃.regs

/-- A load directly behind a store to the same in-range address reads the stored byte (R61, R197). -/
def Obligations.LoadSeesTheStoreBeforeIt : Prop :=
  ∀ (s : State) (ea v : Word), s.Inv → s.pc + 2 ≤ s.stream.length →
    s.exmem.read.memWrite = true → s.exmem.read.aluResult = some ea → s.exmem.read.storeValue = some v →
    s.idex.read.ctl.memRead = true → (executePayload s.idex.read).aluResult = some ea → ea.toNat < s.memSize →
    ∃ t, Steps 2 s t ∧ t.memwb.read.loadedValue = some (v.setWidth 8)

/-! ## Reset (R44) -/

/-- R44: every piece of state after reset, for every size of memory and every stream. -/
def Obligations.ResetValues : Prop :=
  ∀ (memSize : Nat) (stream : List Word),
    let s := State.resetState memSize stream
    s.reg 0 = 0 ∧ (∀ n : RegIdx, 1 ≤ n.toNat → (s.reg n).toNat = 0x100 + n.toNat) ∧ s.pc = 0 ∧
    (∀ a, a < memSize → (s.cell a).toNat = a % 256) ∧
    s.ifid = ⟨IFID.noop, IFID.noop⟩ ∧ s.idex = ⟨IDEX.noop, IDEX.noop⟩ ∧ s.exmem = ⟨EXMEM.noop, EXMEM.noop⟩ ∧
    s.memwb = ⟨MEMWB.noop, MEMWB.noop⟩ ∧ (∀ c, s.errAt c = []) ∧ s.fault = false ∧ s.cycle = 0

/-- The reset state meets the invariants, for every admitted size and every stream. -/
def Obligations.ResetMeetsInvariants : Prop :=
  (∀ (memSize : Nat) (stream : List Word), MemSizeOk memSize →
    (State.resetState memSize stream).Inv ∧ TracksStream (State.resetState memSize stream) ∧
    ErrorsDated (State.resetState memSize stream)) ∧
  State.reset.Inv

/-! ## Invariants and rules of the whole machine -/

/-- R108 with the clauses of log 7, the parameters in range and memory in canonical form are kept by every step. -/
def Obligations.StepKeepsInv : Prop :=
  ∀ s t : State, s.Inv → step s = .next t → t.Inv

/-- R108 as the spec lists it is not kept by a cycle from every launch state R43 admits: the model's finding (log 7). -/
def Obligations.ListedInvariantsAreNotInductive : Prop :=
  ∃ s t : State, s.Admitted ∧ s.pc < s.stream.length ∧ step s = .next t ∧ ¬t.LatchesOk

/-- The stages hold the words of the stream one position apart (R26), and every step of a run keeps that. -/
def Obligations.StagesTrackTheStream : Prop :=
  ∀ s t : State, TracksStream s → s.pc < s.stream.length → step s = .next t → TracksStream t

/-- From every state that meets R108 a step answers a next state. While `pc < N` that is R109; past the end of the stream
the answer is the stutter of log 4, the model's reading. -/
def Obligations.StepAlwaysAnswers : Prop :=
  ∀ s : State, s.LatchesOk → ∃ t, step s = .next t

/-- The one reason a step is refused for is the use of `DC` as a value. The spec gives such a use no meaning (U3); that the
step is refused, and under this name, is the model's choice (log 6). -/
def Obligations.OnlyDontCareIsRefused : Prop :=
  ∀ (s : State) (r : Refusal), step s = .refused r → ∃ u, r = .dontCareRead u

/-- R103: a run of `N` words is exactly `N` cycles; then nothing more happens, without drain. -/
def Obligations.RunIsExactlyNCycles : Prop :=
  ∀ s : State, s.Inv → s.pc = 0 →
    (∀ k, k ≤ s.stream.length → ∃ t, Steps k s t ∧ t.pc = k ∧ t.cycle = s.cycle + k) ∧
    ∀ k, s.stream.length ≤ k → ∃ t, Steps s.stream.length s t ∧ Steps k s t

/-- After the last word has been fetched a step changes nothing (R103; the model's reading, log 4). -/
def Obligations.EndedRunStays : Prop :=
  ∀ s : State, s.stream.length ≤ s.pc → step s = .next s

/-- The stream is read-only: no instruction reaches it (R31, R59, R64). `MEM_SIZE` is a parameter of the hardware, of fixed
size (R7, R50); that it is a field of State, which no step changes, is the model's choice (log 1), as it is for the
stream (log 2). -/
def Obligations.StreamIsReadOnly : Prop :=
  ∀ s t : State, step s = .next t → t.stream = s.stream ∧ t.memSize = s.memSize

/-- Raising is appending: the report of earlier cycles stays, and `fault` is set exactly by a raise and never cleared
(R40, R160). -/
def Obligations.FaultIsSticky : Prop :=
  ∀ s t : State, step s = .next t →
    ∃ raised : List Error, t.err = s.err ++ raised.map (fun e => (s.cycle + 1, e)) ∧
      t.fault = (s.fault || !raised.isEmpty)

/-- `Err` of the cycle just run: decode's DecodeMiss first, then memory-access's AddressOutOfRange, each exactly when its
cause holds (R161, R162, R166, D19). -/
def Obligations.ErrorsOfOneCycle : Prop :=
  ∀ s t : State, s.LatchesOk → ErrorsDated s → s.pc < s.stream.length → step s = .next t →
    ErrorsDated t ∧
    ∃ missed outOfRange : List Error, t.errAt t.cycle = missed ++ outOfRange ∧
      (missed = if decode s.ifid.read.iw = .decodeMiss s.ifid.read.iw then [.decodeMiss s.ifid.read.iw] else []) ∧
      (∀ ea, s.exmem.read.aluResult = some ea → outOfRange =
        if (s.exmem.read.memRead = true ∨ s.exmem.read.memWrite = true) ∧ s.memSize ≤ ea.toNat
        then [.addressOutOfRange ea] else []) ∧
      (s.exmem.read.aluResult = none → outOfRange = [])

/-- Registers, memory and latches do not depend on the error report (R40): two states that differ in it alone step to
states that differ in it alone. -/
def Obligations.ErrorReportIsNotRead : Prop :=
  ∀ (s t : State) (err : List (Nat × Error)) (fault : Bool), step s = .next t →
    ∃ err' fault', step { s with err := err, fault := fault } = .next { t with err := err', fault := fault' }

/-- StreamExhaustedMidFlight holds at the end of a run exactly when one of the last four words is not NOOP (R163). -/
def Obligations.StreamExhaustedByLastFourWords : Prop :=
  ∀ s : State, TracksStream s → s.pc = s.stream.length →
    (s.StreamExhaustedMidFlight ↔
      ∃ j, 1 ≤ j ∧ j ≤ 4 ∧ j ≤ s.stream.length ∧ s.stream.getD (s.stream.length - j) 0 ≠ 0)

/-- A stream of no-ops changes neither registers nor memory, raises nothing, and leaves every latch side with its NOOP
payload, after any number of steps: the first `N - pc` of them are cycles (R103, R150), and those past the end of the
stream are the stutter of log 4, the model's reading. -/
def Obligations.NoopStreamChangesNothing : Prop :=
  ∀ s : State, AllNoop s → (∀ w ∈ s.stream, w = 0) →
    ∀ k, ∃ t, Steps k s t ∧ t.regs = s.regs ∧ t.mem = s.mem ∧ t.err = s.err ∧ t.fault = s.fault ∧ AllNoop t

/-- `MemRead` and `MemWrite` (R52, R53): the cell when in range, nothing otherwise; a write sets the low 8 bits, changes
no other cell, and keeps everything else of the state. -/
def Obligations.MemoryPrimitives : Prop :=
  ∀ (s : State) (a v : Word),
    (a.toNat < s.memSize → s.memRead a = some (s.cell a.toNat) ∧
      ∃ t, s.memWrite a v = some t ∧ (t.cell a.toNat).toNat = v.toNat % 256 ∧
        (∀ c, c ≠ a.toNat → t.cell c = s.cell c) ∧ t = { s with mem := t.mem }) ∧
    (s.memSize ≤ a.toNat → s.memRead a = none ∧ s.memWrite a v = none)

/-- The snapshot of a cycle is the state that the five stage functions leave, before the latch copy (R41): the read
sides are what the stages consumed, the write sides what they produced. -/
def Obligations.SnapshotIsTakenBeforeTheCopy : Prop :=
  ∀ (payload : State → IDEX) (miss : Option Word) (s m : State), s.pc < s.stream.length →
    runStages payload miss s = .next m →
    ∃ t, clockCycle payload miss s = .next t ∧ Snapshot.between s t = Snapshot.ofStages m ∧
      m.ifid.read = s.ifid.read ∧ m.idex.read = s.idex.read ∧ m.exmem.read = s.exmem.read ∧ m.memwb.read = s.memwb.read

/-- The launch of a run admits exactly the states of `State.Admitted`, and refuses the others by name (U7). That is R43's
condition, R108 on both sides of every latch, with the ranges of R7, R25 and R50 and the canonical form of memory (log 12);
that the check is an operation of its own is the model's choice (log 11), and so is that a launch state's cycle count,
error report, fault bit and fetch index up to `N`, of which R43 says nothing, are admitted and kept as they are (log 18). -/
def Obligations.LaunchAdmitsExactlyR43 : Prop :=
  ∀ s : State, (s.Admitted → launch s = .next s) ∧ (¬s.Admitted → launch s = .refused .launchNotAdmitted)

/-! ## The program-order view (R107, R194, R200) -/

/-- One cycle is one step of the program-order machine of R107: reads see the writes of the words at least four
positions before, a memory access those of all words before, and the three writes between are queued. -/
def Obligations.CycleIsOneProgramOrderStep : Prop :=
  ∀ s : State, s.Inv → s.pc < s.stream.length →
    ∃ t, step s = .next t ∧ queuedView t = queuedStep s.memSize (queuedView s) (runsAs s.ifid.read.iw)

/-- A word that reads no register with a write still queued commutes with completing everything in flight: completing
after the cycle is executing the word sequentially on the completed state (R194, R200). -/
def Obligations.HazardFreeCycleIsSequential : Prop :=
  ∀ s : State, s.Inv → s.pc < s.stream.length → NoPendingSource (queuedView s) (runsAs s.ifid.read.iw) →
    ∃ t, step s = .next t ∧
      (queuedView t).flush = sequentialStep s.memSize (queuedView s).flush (runsAs s.ifid.read.iw)

/-- The end of a whole run (R107): the final registers are those of the words up to `N-5`, the final memory that of the
words up to `N-4`, each in program order. -/
def Obligations.RunMatchesProgramOrder : Prop :=
  ∀ s : State, s.Inv → AllNoop s → s.pc = 0 →
    let start : Queued := ⟨⟨s.regs, s.mem⟩, none, none, none⟩
    let words := s.stream.map runsAs
    ∃ t, Steps s.stream.length s t ∧
      t.regs = ((words.take (s.stream.length - 1)).foldl (queuedStep s.memSize) start).arch.regs ∧
      t.mem = ((words.take (s.stream.length - 3)).foldl (queuedStep s.memSize) start).arch.mem

/-- R200: under hazard safety, four trailing no-ops, addresses in range and supported words only, the registers and the
memory of the end state are those of executing the stream one instruction at a time, and no error is reported. -/
def Obligations.HazardSafeRunIsSequential : Prop :=
  ∀ (s : State) (p : List Instr), s.Inv → AllNoop s → s.pc = 0 → FaultFree s →
    s.stream = (p ++ List.replicate 4 Instr.nop).map encode → HazardSafe p →
    AddressesInRange s.memSize p ⟨s.regs, s.mem⟩ →
    ∃ t, Steps s.stream.length s t ∧
      (⟨t.regs, t.mem⟩ : Arch) = p.foldl (sequentialStep s.memSize) ⟨s.regs, s.mem⟩ ∧ FaultFree t
end

