-- ==== Sys2Proof/Laws/Decode.lean ====
section
/-! SUPPORT. The laws of the decoder: the fields of the words of R72 and R73, and which rows a word can select. -/

namespace Sys2Proof.Laws

/-- The types of `Instr` carry the operand ranges of R71 and R80. -/
theorem wellFormed_all (i : Instr) : i.WellFormed := by
  cases i <;> simp only [Instr.WellFormed] <;> refine ⟨?_, ?_, ?_, ?_⟩ <;> first | omega | skip
  all_goals (rename_i imm; have := imm.two_mul_toInt_le; have := imm.le_two_mul_toInt; omega)

/-! The codes of R75 are distinct. -/

@[simp] theorem opcodeR_ne_opcodeLb : opcodeR ≠ opcodeLb := by decide
@[simp] theorem opcodeLb_ne_opcodeR : opcodeLb ≠ opcodeR := by decide
@[simp] theorem opcodeR_ne_opcodeSb : opcodeR ≠ opcodeSb := by decide
@[simp] theorem opcodeSb_ne_opcodeR : opcodeSb ≠ opcodeR := by decide
@[simp] theorem opcodeLb_ne_opcodeSb : opcodeLb ≠ opcodeSb := by decide
@[simp] theorem opcodeSb_ne_opcodeLb : opcodeSb ≠ opcodeLb := by decide
@[simp] theorem functAdd_ne_functSub : functAdd ≠ functSub := by decide
@[simp] theorem functSub_ne_functAdd : functSub ≠ functAdd := by decide

/-- The fields of an R-shape word (R72). -/
theorem fieldsOf_rShapeWord (rs rt rd : RegIdx) (shamt : BitVec 5) (funct : BitVec 6) :
    fieldsOf (rShapeWord rs rt rd shamt funct) =
      { opcode := opcodeR, rs := rs, rt := rt, rd := rd, shamt := shamt, funct := funct,
        immediate := (rShapeWord rs rt rd shamt funct).extractLsb' 0 16 } := by
  simp only [fieldsOf, rShapeWord, Fields.mk.injEq]
  refine ⟨?_, ?_, ?_, ?_, ?_, ?_, trivial⟩ <;> ext k hk <;> simp <;> interval_cases k <;> simp

/-- The fields of an I-shape word (R73). -/
theorem fieldsOf_iShapeWord (opcode : BitVec 6) (rs rt : RegIdx) (imm : Imm16) :
    (fieldsOf (iShapeWord opcode rs rt imm)).opcode = opcode ∧ (fieldsOf (iShapeWord opcode rs rt imm)).rs = rs ∧
    (fieldsOf (iShapeWord opcode rs rt imm)).rt = rt ∧ (fieldsOf (iShapeWord opcode rs rt imm)).immediate = imm := by
  simp only [fieldsOf, iShapeWord]
  refine ⟨?_, ?_, ?_, ?_⟩ <;> ext k hk <;> simp <;> interval_cases k <;> simp

/-- What the decoder can answer, and the fields that make it answer so (R75, R78). -/
theorem decode_cases (w : Word) :
    (w = Word.noop ∧ decode w = .instr .nop) ∨
    (w ≠ Word.noop ∧ (fieldsOf w).opcode = opcodeR ∧ (fieldsOf w).funct = functAdd ∧
      decode w = .instr (.add (fieldsOf w).rs (fieldsOf w).rt (fieldsOf w).rd (fieldsOf w).shamt)) ∨
    (w ≠ Word.noop ∧ (fieldsOf w).opcode = opcodeR ∧ (fieldsOf w).funct = functSub ∧
      decode w = .instr (.sub (fieldsOf w).rs (fieldsOf w).rt (fieldsOf w).rd (fieldsOf w).shamt)) ∨
    (w ≠ Word.noop ∧ (fieldsOf w).opcode = opcodeLb ∧
      decode w = .instr (.lb (fieldsOf w).rs (fieldsOf w).rt (fieldsOf w).immediate)) ∨
    (w ≠ Word.noop ∧ (fieldsOf w).opcode = opcodeSb ∧
      decode w = .instr (.sb (fieldsOf w).rs (fieldsOf w).rt (fieldsOf w).immediate)) ∨
    (w ≠ Word.noop ∧
      ((fieldsOf w).opcode = opcodeR ∧ (fieldsOf w).funct ≠ functAdd ∧ (fieldsOf w).funct ≠ functSub ∨
        (fieldsOf w).opcode ≠ opcodeR ∧ (fieldsOf w).opcode ≠ opcodeLb ∧ (fieldsOf w).opcode ≠ opcodeSb) ∧
      decode w = .decodeMiss w) := by
  by_cases h0 : w = Word.noop
  · exact .inl ⟨h0, by simp [decode, h0]⟩
  · simp only [decode, h0, if_false, not_false_eq_true, false_and, false_or, true_and, ne_eq]
    generalize fieldsOf w = f
    by_cases h1 : f.opcode = opcodeR
    · by_cases h2 : f.funct = functAdd
      · simp [h1, h2]
      · by_cases h3 : f.funct = functSub <;> simp [h1, h2, h3]
    · by_cases h2 : f.opcode = opcodeLb
      · simp [h2]
      · by_cases h3 : f.opcode = opcodeSb <;> simp [h1, h2, h3]

end Sys2Proof.Laws
end

