-- ==== Sys2Proof/Laws/State.lean ====
section
/-! SUPPORT. One lemma per field of State per update: what the update writes and what it leaves. -/

namespace Sys2Proof.Laws

open Sys2Proof.Machine

variable (s : State)

/-! ## `State.setReg` -/

@[simp] theorem setReg_regs (r : RegIdx) (v : Word) : (s.setReg r v).regs = s.regs.set r.toNat v r.isLt := rfl
@[simp] theorem setReg_pc (r : RegIdx) (v : Word) : (s.setReg r v).pc = s.pc := rfl
@[simp] theorem setReg_stream (r : RegIdx) (v : Word) : (s.setReg r v).stream = s.stream := rfl
@[simp] theorem setReg_memSize (r : RegIdx) (v : Word) : (s.setReg r v).memSize = s.memSize := rfl
@[simp] theorem setReg_mem (r : RegIdx) (v : Word) : (s.setReg r v).mem = s.mem := rfl
@[simp] theorem setReg_ifid (r : RegIdx) (v : Word) : (s.setReg r v).ifid = s.ifid := rfl
@[simp] theorem setReg_idex (r : RegIdx) (v : Word) : (s.setReg r v).idex = s.idex := rfl
@[simp] theorem setReg_exmem (r : RegIdx) (v : Word) : (s.setReg r v).exmem = s.exmem := rfl
@[simp] theorem setReg_memwb (r : RegIdx) (v : Word) : (s.setReg r v).memwb = s.memwb := rfl
@[simp] theorem setReg_cycle (r : RegIdx) (v : Word) : (s.setReg r v).cycle = s.cycle := rfl
@[simp] theorem setReg_err (r : RegIdx) (v : Word) : (s.setReg r v).err = s.err := rfl
@[simp] theorem setReg_fault (r : RegIdx) (v : Word) : (s.setReg r v).fault = s.fault := rfl

/-! ## `State.putIfid` -/

@[simp] theorem putIfid_regs (p : IFID) : (s.putIfid p).regs = s.regs := rfl
@[simp] theorem putIfid_pc (p : IFID) : (s.putIfid p).pc = s.pc := rfl
@[simp] theorem putIfid_stream (p : IFID) : (s.putIfid p).stream = s.stream := rfl
@[simp] theorem putIfid_memSize (p : IFID) : (s.putIfid p).memSize = s.memSize := rfl
@[simp] theorem putIfid_mem (p : IFID) : (s.putIfid p).mem = s.mem := rfl
@[simp] theorem putIfid_ifid (p : IFID) : (s.putIfid p).ifid = ⟨p, s.ifid.read⟩ := rfl
@[simp] theorem putIfid_idex (p : IFID) : (s.putIfid p).idex = s.idex := rfl
@[simp] theorem putIfid_exmem (p : IFID) : (s.putIfid p).exmem = s.exmem := rfl
@[simp] theorem putIfid_memwb (p : IFID) : (s.putIfid p).memwb = s.memwb := rfl
@[simp] theorem putIfid_cycle (p : IFID) : (s.putIfid p).cycle = s.cycle := rfl
@[simp] theorem putIfid_err (p : IFID) : (s.putIfid p).err = s.err := rfl
@[simp] theorem putIfid_fault (p : IFID) : (s.putIfid p).fault = s.fault := rfl

/-! ## `State.putIdex` -/

@[simp] theorem putIdex_regs (p : IDEX) : (s.putIdex p).regs = s.regs := rfl
@[simp] theorem putIdex_pc (p : IDEX) : (s.putIdex p).pc = s.pc := rfl
@[simp] theorem putIdex_stream (p : IDEX) : (s.putIdex p).stream = s.stream := rfl
@[simp] theorem putIdex_memSize (p : IDEX) : (s.putIdex p).memSize = s.memSize := rfl
@[simp] theorem putIdex_mem (p : IDEX) : (s.putIdex p).mem = s.mem := rfl
@[simp] theorem putIdex_ifid (p : IDEX) : (s.putIdex p).ifid = s.ifid := rfl
@[simp] theorem putIdex_idex (p : IDEX) : (s.putIdex p).idex = ⟨p, s.idex.read⟩ := rfl
@[simp] theorem putIdex_exmem (p : IDEX) : (s.putIdex p).exmem = s.exmem := rfl
@[simp] theorem putIdex_memwb (p : IDEX) : (s.putIdex p).memwb = s.memwb := rfl
@[simp] theorem putIdex_cycle (p : IDEX) : (s.putIdex p).cycle = s.cycle := rfl
@[simp] theorem putIdex_err (p : IDEX) : (s.putIdex p).err = s.err := rfl
@[simp] theorem putIdex_fault (p : IDEX) : (s.putIdex p).fault = s.fault := rfl

/-! ## `State.putExmem` -/

@[simp] theorem putExmem_regs (p : EXMEM) : (s.putExmem p).regs = s.regs := rfl
@[simp] theorem putExmem_pc (p : EXMEM) : (s.putExmem p).pc = s.pc := rfl
@[simp] theorem putExmem_stream (p : EXMEM) : (s.putExmem p).stream = s.stream := rfl
@[simp] theorem putExmem_memSize (p : EXMEM) : (s.putExmem p).memSize = s.memSize := rfl
@[simp] theorem putExmem_mem (p : EXMEM) : (s.putExmem p).mem = s.mem := rfl
@[simp] theorem putExmem_ifid (p : EXMEM) : (s.putExmem p).ifid = s.ifid := rfl
@[simp] theorem putExmem_idex (p : EXMEM) : (s.putExmem p).idex = s.idex := rfl
@[simp] theorem putExmem_exmem (p : EXMEM) : (s.putExmem p).exmem = ⟨p, s.exmem.read⟩ := rfl
@[simp] theorem putExmem_memwb (p : EXMEM) : (s.putExmem p).memwb = s.memwb := rfl
@[simp] theorem putExmem_cycle (p : EXMEM) : (s.putExmem p).cycle = s.cycle := rfl
@[simp] theorem putExmem_err (p : EXMEM) : (s.putExmem p).err = s.err := rfl
@[simp] theorem putExmem_fault (p : EXMEM) : (s.putExmem p).fault = s.fault := rfl

/-! ## `State.putMemwb` -/

@[simp] theorem putMemwb_regs (p : MEMWB) : (s.putMemwb p).regs = s.regs := rfl
@[simp] theorem putMemwb_pc (p : MEMWB) : (s.putMemwb p).pc = s.pc := rfl
@[simp] theorem putMemwb_stream (p : MEMWB) : (s.putMemwb p).stream = s.stream := rfl
@[simp] theorem putMemwb_memSize (p : MEMWB) : (s.putMemwb p).memSize = s.memSize := rfl
@[simp] theorem putMemwb_mem (p : MEMWB) : (s.putMemwb p).mem = s.mem := rfl
@[simp] theorem putMemwb_ifid (p : MEMWB) : (s.putMemwb p).ifid = s.ifid := rfl
@[simp] theorem putMemwb_idex (p : MEMWB) : (s.putMemwb p).idex = s.idex := rfl
@[simp] theorem putMemwb_exmem (p : MEMWB) : (s.putMemwb p).exmem = s.exmem := rfl
@[simp] theorem putMemwb_memwb (p : MEMWB) : (s.putMemwb p).memwb = ⟨p, s.memwb.read⟩ := rfl
@[simp] theorem putMemwb_cycle (p : MEMWB) : (s.putMemwb p).cycle = s.cycle := rfl
@[simp] theorem putMemwb_err (p : MEMWB) : (s.putMemwb p).err = s.err := rfl
@[simp] theorem putMemwb_fault (p : MEMWB) : (s.putMemwb p).fault = s.fault := rfl

/-! ## `State.advancePc` -/

@[simp] theorem advancePc_regs : s.advancePc.regs = s.regs := rfl
@[simp] theorem advancePc_pc : s.advancePc.pc = s.pc + 1 := rfl
@[simp] theorem advancePc_stream : s.advancePc.stream = s.stream := rfl
@[simp] theorem advancePc_memSize : s.advancePc.memSize = s.memSize := rfl
@[simp] theorem advancePc_mem : s.advancePc.mem = s.mem := rfl
@[simp] theorem advancePc_ifid : s.advancePc.ifid = s.ifid := rfl
@[simp] theorem advancePc_idex : s.advancePc.idex = s.idex := rfl
@[simp] theorem advancePc_exmem : s.advancePc.exmem = s.exmem := rfl
@[simp] theorem advancePc_memwb : s.advancePc.memwb = s.memwb := rfl
@[simp] theorem advancePc_cycle : s.advancePc.cycle = s.cycle := rfl
@[simp] theorem advancePc_err : s.advancePc.err = s.err := rfl
@[simp] theorem advancePc_fault : s.advancePc.fault = s.fault := rfl

/-! ## `State.latchCopy` -/

@[simp] theorem latchCopy_regs : s.latchCopy.regs = s.regs := rfl
@[simp] theorem latchCopy_pc : s.latchCopy.pc = s.pc := rfl
@[simp] theorem latchCopy_stream : s.latchCopy.stream = s.stream := rfl
@[simp] theorem latchCopy_memSize : s.latchCopy.memSize = s.memSize := rfl
@[simp] theorem latchCopy_mem : s.latchCopy.mem = s.mem := rfl
@[simp] theorem latchCopy_ifid : s.latchCopy.ifid = ⟨s.ifid.write, s.ifid.write⟩ := rfl
@[simp] theorem latchCopy_idex : s.latchCopy.idex = ⟨s.idex.write, s.idex.write⟩ := rfl
@[simp] theorem latchCopy_exmem : s.latchCopy.exmem = ⟨s.exmem.write, s.exmem.write⟩ := rfl
@[simp] theorem latchCopy_memwb : s.latchCopy.memwb = ⟨s.memwb.write, s.memwb.write⟩ := rfl
@[simp] theorem latchCopy_cycle : s.latchCopy.cycle = s.cycle + 1 := rfl
@[simp] theorem latchCopy_err : s.latchCopy.err = s.err := rfl
@[simp] theorem latchCopy_fault : s.latchCopy.fault = s.fault := rfl

/-! ## `State.raise` -/

@[simp] theorem raise_regs (e : Error) : (s.raise e).regs = s.regs := rfl
@[simp] theorem raise_pc (e : Error) : (s.raise e).pc = s.pc := rfl
@[simp] theorem raise_stream (e : Error) : (s.raise e).stream = s.stream := rfl
@[simp] theorem raise_memSize (e : Error) : (s.raise e).memSize = s.memSize := rfl
@[simp] theorem raise_mem (e : Error) : (s.raise e).mem = s.mem := rfl
@[simp] theorem raise_ifid (e : Error) : (s.raise e).ifid = s.ifid := rfl
@[simp] theorem raise_idex (e : Error) : (s.raise e).idex = s.idex := rfl
@[simp] theorem raise_exmem (e : Error) : (s.raise e).exmem = s.exmem := rfl
@[simp] theorem raise_memwb (e : Error) : (s.raise e).memwb = s.memwb := rfl
@[simp] theorem raise_cycle (e : Error) : (s.raise e).cycle = s.cycle := rfl
@[simp] theorem raise_err (e : Error) : (s.raise e).err = s.err ++ [(s.cycle + 1, e)] := rfl
@[simp] theorem raise_fault (e : Error) : (s.raise e).fault = true := rfl

/-! ## Sequencing -/

@[simp] theorem andThen_next (f : State → Host.Outcome State Fault Refusal) : andThen (.next s) f = f s := rfl

@[simp] theorem andThen_refused (r : Refusal) (f : State → Host.Outcome State Fault Refusal) :
    andThen (.refused r) f = .refused r := rfl

/-- A sequence answers a next state exactly when both parts do. -/
theorem andThen_eq_next {o : Host.Outcome State Fault Refusal} {f : State → Host.Outcome State Fault Refusal} {t : State} :
    andThen o f = .next t ↔ ∃ m, o = .next m ∧ f m = .next t := by
  cases o <;> simp [andThen]

end Sys2Proof.Laws
end

