-- ==== Sys2Proof/Laws/Memory.lean ====
section
/-! SUPPORT. The laws of main memory and of the register file: a read after a write, other places unchanged, and the
canonical form of memory kept by every operation. -/

namespace Sys2Proof.Laws

open Sys2Proof.Machine

/-! ## Bytes -/

theorem read_erase_same (m : Memory) (a : Nat) : (m.erase a).read a = Memory.unlisted a := by
  induction m with
  | nil => rfl
  | cons p m ih => by_cases h : p.1 = a <;> simp [Memory.erase, Memory.read, h, ih]

theorem read_erase_other (m : Memory) {a c : Nat} (hc : c ≠ a) : (m.erase a).read c = m.read c := by
  induction m with
  | nil => rfl
  | cons p m ih =>
    by_cases h : p.1 = a
    · simp [Memory.erase, Memory.read, h, ih, Ne.symm hc]
    · simp [Memory.erase, Memory.read, h, ih]

theorem read_insert_other (m : Memory) {a c : Nat} (v : Byte) (hc : c ≠ a) : (m.insert a v).read c = m.read c := by
  induction m with
  | nil => simp [Memory.insert, Memory.read, Ne.symm hc]
  | cons p m ih =>
    by_cases h : a < p.1
    · simp [Memory.insert, Memory.read, h, Ne.symm hc]
    · simp [Memory.insert, Memory.read, h, ih]

theorem read_insert_erase_same (m : Memory) (a : Nat) (v : Byte) : ((m.erase a).insert a v).read a = v := by
  induction m with
  | nil => simp [Memory.erase, Memory.insert, Memory.read]
  | cons p m ih =>
    by_cases h : p.1 = a
    · simpa [Memory.erase, h] using ih
    · by_cases h' : a < p.1 <;> simp [Memory.erase, Memory.insert, Memory.read, h, h', ih]

/-- A read of the written address gives the written byte (R57). -/
@[simp] theorem read_write_same (m : Memory) (a : Nat) (v : Byte) : (m.write a v).read a = v := by
  by_cases h : v = Memory.unlisted a
  · simp [Memory.write, h, read_erase_same]
  · simp [Memory.write, h, read_insert_erase_same]

/-- A write changes no other cell (R53). -/
theorem read_write_other (m : Memory) {a c : Nat} (v : Byte) (hc : c ≠ a) : (m.write a v).read c = m.read c := by
  by_cases h : v = Memory.unlisted a
  · simp [Memory.write, h, read_erase_other m hc]
  · simp [Memory.write, h, read_insert_other _ v hc, read_erase_other m hc]

/-! ## The canonical form -/

theorem mem_of_mem_erase {m : Memory} {a : Nat} {p : Host.Cell} (h : p ∈ m.erase a) : p ∈ m ∧ p.1 ≠ a := by
  induction m with
  | nil => simp [Memory.erase] at h
  | cons q m ih =>
    by_cases hq : q.1 = a
    · simp only [Memory.erase, hq, if_true] at h
      exact ⟨List.mem_cons_of_mem _ (ih h).1, (ih h).2⟩
    · simp only [Memory.erase, hq, if_false, List.mem_cons] at h
      rcases h with rfl | h
      · exact ⟨List.mem_cons_self, hq⟩
      · exact ⟨List.mem_cons_of_mem _ (ih h).1, (ih h).2⟩

theorem mem_of_mem_insert {m : Memory} {a : Nat} {v : Byte} {p : Host.Cell} (h : p ∈ m.insert a v) :
    p = (a, v) ∨ p ∈ m := by
  induction m with
  | nil => simpa [Memory.insert] using h
  | cons q m ih =>
    by_cases hq : a < q.1
    · simpa [Memory.insert, hq] using h
    · simp only [Memory.insert, hq, if_false, List.mem_cons] at h ⊢
      rcases h with rfl | h
      · exact .inr (.inl rfl)
      · exact (ih h).imp id .inr

theorem erase_wf {m : Memory} (h : m.wf) (a : Nat) : (m.erase a).wf := by
  refine ⟨?_, fun p hp => h.2 p (mem_of_mem_erase hp).1⟩
  have hs := h.1
  clear h
  induction m with
  | nil => exact List.Pairwise.nil
  | cons q m ih =>
    rw [List.pairwise_cons] at hs
    by_cases hq : q.1 = a
    · simpa [Memory.erase, hq] using ih hs.2
    · simp only [Memory.erase, hq, if_false]
      exact List.pairwise_cons.2 ⟨fun p hp => hs.1 p (mem_of_mem_erase hp).1, ih hs.2⟩

theorem insert_sorted {m : Memory} {a : Nat} {v : Byte} (hs : m.Pairwise (fun p q => p.1 < q.1))
    (ha : ∀ p ∈ m, p.1 ≠ a) : (m.insert a v).Pairwise (fun p q => p.1 < q.1) := by
  induction m with
  | nil => simp [Memory.insert]
  | cons q m ih =>
    rw [List.pairwise_cons] at hs
    have hqa : q.1 ≠ a := ha q List.mem_cons_self
    by_cases hq : a < q.1
    · simp only [Memory.insert, hq, if_true]
      refine List.pairwise_cons.2 ⟨?_, List.pairwise_cons.2 hs⟩
      intro p hp
      rcases List.mem_cons.1 hp with rfl | hp
      · exact hq
      · exact lt_trans hq (hs.1 p hp)
    · simp only [Memory.insert, hq, if_false]
      refine List.pairwise_cons.2 ⟨?_, ih hs.2 fun p hp => ha p (List.mem_cons_of_mem _ hp)⟩
      intro p hp
      rcases mem_of_mem_insert hp with rfl | hp
      · exact lt_of_le_of_ne (Nat.le_of_not_lt hq) hqa
      · exact hs.1 p hp

/-- A write keeps the canonical form. -/
theorem write_wf {m : Memory} (h : m.wf) (a : Nat) (v : Byte) : (m.write a v).wf := by
  by_cases hv : v = Memory.unlisted a
  · simpa [Memory.write, hv] using erase_wf h a
  · have he := erase_wf h a
    simp only [Memory.write, hv, if_false]
    refine ⟨insert_sorted he.1 fun p hp => (mem_of_mem_erase hp).2, ?_⟩
    intro p hp
    rcases mem_of_mem_insert hp with rfl | hp
    · exact hv
    · exact he.2 p hp

/-- A write lists no address that was not listed before but the written one. -/
theorem mem_of_mem_write {m : Memory} {a : Nat} {v : Byte} {p : Host.Cell} (h : p ∈ m.write a v) :
    p.1 = a ∨ p ∈ m := by
  unfold Memory.write at h
  split at h
  · exact .inr (mem_of_mem_erase h).1
  · rcases mem_of_mem_insert h with rfl | h
    · exact .inl rfl
    · exact .inr (mem_of_mem_erase h).1

/-- Memory at reset has the canonical form. -/
theorem reset_mem_wf (memSize : Nat) (stream : List Word) : (State.resetState memSize stream).mem.wf :=
  ⟨List.Pairwise.nil, fun _ hp => absurd hp List.not_mem_nil⟩

/-- `MemWrite` keeps the canonical form of memory. -/
theorem memWrite_wf {s t : State} {a v : Word} (h : s.memWrite a v = some t) (hs : s.mem.wf) : t.mem.wf := by
  unfold State.memWrite at h
  split at h
  · cases h; exact write_wf hs _ _
  · cases h

/-! ## Registers -/

@[simp] theorem reg_setReg_same (s : State) (r : RegIdx) (v : Word) : (s.setReg r v).reg r = v := by
  simp [State.reg, State.setReg, Vector.get_eq_getElem]

theorem reg_setReg_other (s : State) {r q : RegIdx} (v : Word) (h : q ≠ r) : (s.setReg r v).reg q = s.reg q := by
  have : r.toNat ≠ q.toNat := fun e => h (BitVec.eq_of_toNat_eq e.symm)
  simp [State.reg, State.setReg, Vector.get_eq_getElem, Vector.getElem_set_ne, this]

end Sys2Proof.Laws
end

