-- ==== Sys2Proof/Laws/PerInstr.lean ====
section
/-! SUPPORT. The statements made per instruction, one lemma per constructor of Instr. -/

namespace Sys2Proof.Laws

/-- The word of an instruction holds its opcode, its function code and its operands in the fields of R71. -/
def FieldRoundTrip.Statement : Instr → Prop
  | .nop => fieldsOf (encode .nop) = ⟨0#6, 0#5, 0#5, 0#5, 0#5, 0#6, 0#16⟩
  | .add rs rt rd shamt =>
    let f := fieldsOf (encode (.add rs rt rd shamt))
    f.opcode = 0x00#6 ∧ f.rs = rs ∧ f.rt = rt ∧ f.rd = rd ∧ f.shamt = shamt ∧ f.funct = 0x20#6
  | .sub rs rt rd shamt =>
    let f := fieldsOf (encode (.sub rs rt rd shamt))
    f.opcode = 0x00#6 ∧ f.rs = rs ∧ f.rt = rt ∧ f.rd = rd ∧ f.shamt = shamt ∧ f.funct = 0x22#6
  | .lb rs rt imm =>
    let f := fieldsOf (encode (.lb rs rt imm))
    f.opcode = 0x20#6 ∧ f.rs = rs ∧ f.rt = rt ∧ f.immediate = imm
  | .sb rs rt imm =>
    let f := fieldsOf (encode (.sb rs rt imm))
    f.opcode = 0x28#6 ∧ f.rs = rs ∧ f.rt = rt ∧ f.immediate = imm

theorem FieldRoundTrip.nop : FieldRoundTrip.Statement .nop := by
  unfold FieldRoundTrip.Statement
  decide

theorem FieldRoundTrip.add (rs rt rd : RegIdx) (shamt : BitVec 5) : FieldRoundTrip.Statement (.add rs rt rd shamt) := by
  simp only [FieldRoundTrip.Statement, encode, fieldsOf_rShapeWord]
  exact ⟨trivial, trivial, trivial, trivial, trivial, trivial⟩

theorem FieldRoundTrip.sub (rs rt rd : RegIdx) (shamt : BitVec 5) : FieldRoundTrip.Statement (.sub rs rt rd shamt) := by
  simp only [FieldRoundTrip.Statement, encode, fieldsOf_rShapeWord]
  exact ⟨trivial, trivial, trivial, trivial, trivial, trivial⟩

theorem FieldRoundTrip.lb (rs rt : RegIdx) (imm : Imm16) : FieldRoundTrip.Statement (.lb rs rt imm) :=
  fieldsOf_iShapeWord opcodeLb rs rt imm

theorem FieldRoundTrip.sb (rs rt : RegIdx) (imm : Imm16) : FieldRoundTrip.Statement (.sb rs rt imm) :=
  fieldsOf_iShapeWord opcodeSb rs rt imm

end Sys2Proof.Laws
end

