-- ==== Sys2Proof/Laws/Stages.lean ====
section
/-! SUPPORT. One lemma per stage function: everything it can do when it answers, and when it answers. -/

namespace Sys2Proof.Laws

open Sys2Proof.Machine Sys2Proof.Safety

/-- Fetch while the fetch index is within the stream (R92). -/
theorem fetch_of_lt {s : State} (h : s.pc < s.stream.length) :
    fetch s = (s.putIfid { iw := s.stream[s.pc] }).advancePc := by
  simp [fetch, h]

theorem lowByte_eq (v : Word) : v.extractLsb' 0 8 = v.setWidth 8 := by
  ext k hk; simp

/-- What memory-access does whenever it answers (R99). -/
theorem memoryAccess_next {s t : State} (h : memoryAccess s = .next t) :
    t = { s with
      mem   := memoryAfter s.memSize s.mem s.exmem.read
      memwb := ⟨accessResult s.memSize s.mem s.exmem.read, s.memwb.read⟩
      err   := s.err ++ (accessErrors s.memSize s.exmem.read).map (fun e => (s.cycle + 1, e))
      fault := s.fault || !(accessErrors s.memSize s.exmem.read).isEmpty } := by
  rcases he : s.exmem.read with ⟨iw, mr, mw, mtr, rw, ea, sv, wr⟩
  simp only [memoryAccess, he] at h
  cases mr
  · cases mw
    · simp only [Bool.false_eq_true, if_false, Host.Outcome.next.injEq] at h
      subst h
      cases ea <;> simp [State.putMemwb, accessPayload, memoryAfter, accessResult, accessErrors]
    · cases ea with
      | none => simp at h
      | some ea =>
        simp only [Bool.false_eq_true, if_false, if_true, storeByte, he] at h
        by_cases hr : ea.toNat < s.memSize
        · cases sv with
          | none => simp [State.InRange, hr] at h
          | some v =>
            simp only [State.InRange, hr, if_true, State.memWrite, Host.Outcome.next.injEq] at h
            subst h
            simp [State.putMemwb, accessPayload, memoryAfter, accessResult, accessErrors, hr, lowByte_eq]
        · simp only [State.InRange, hr, if_false, Host.Outcome.next.injEq] at h
          subst h
          cases sv <;>
            simp [State.putMemwb, State.raise, accessPayload, memoryAfter, accessResult, accessErrors, hr,
              Nat.le_of_not_lt hr]
  · cases ea with
    | none => simp at h
    | some ea =>
      simp only [if_true, Host.Outcome.next.injEq, loadByte, he, State.memRead, State.cell] at h
      subst h
      by_cases hr : ea.toNat < s.memSize
      · simp [State.InRange, State.putMemwb, accessPayload, memoryAfter, accessResult, accessErrors, hr]
      · simp [State.InRange, State.putMemwb, State.raise, accessPayload, memoryAfter, accessResult, accessErrors, hr,
          Nat.le_of_not_lt hr]

/-- Memory-access answers whenever its latch meets R108. -/
theorem memoryAccess_total {s : State} (h : EXMEM.Ok s.exmem.read) : ∃ t, memoryAccess s = .next t := by
  rcases he : s.exmem.read with ⟨iw, mr, mw, mtr, rw, ea, sv, wr⟩
  simp only [EXMEM.Ok, HasValue, he] at h
  obtain ⟨-, ha, hv, -⟩ := h
  simp only [memoryAccess, he]
  cases mr <;> cases mw <;> cases ea <;> simp at ha ⊢
  obtain ⟨v, hv⟩ := Option.isSome_iff_exists.1 (hv rfl)
  simp only [storeByte, he, hv]
  split
  · split <;> simp
  · simp

/-- What write-back does whenever it answers (R100). -/
theorem writeBack_next {s t : State} (h : writeBack s = .next t) :
    t = { s with regs := applyWrite s.regs (registerWrite s.memwb.read) } := by
  rcases hm : s.memwb.read with ⟨iw, mtr, rw, lv, ar, wr⟩
  simp only [writeBack, hm] at h
  cases rw
  · simp only [Bool.false_eq_true, if_false, Host.Outcome.next.injEq] at h
    subst h
    simp [registerWrite, applyWrite]
  · rcases mtr with _ | _ | _ <;> cases wr <;> simp at h
    · cases ar <;> simp at h
      subst h
      simp [registerWrite, applyWrite, State.setReg]
    · cases lv <;> simp at h
      subst h
      simp [registerWrite, applyWrite, State.setReg, zext32]

/-- Write-back answers whenever its latch meets R108. -/
theorem writeBack_total {s : State} (h : MEMWB.Ok s.memwb.read) : ∃ t, writeBack s = .next t := by
  rcases hm : s.memwb.read with ⟨iw, mtr, rw, lv, ar, wr⟩
  simp only [MEMWB.Ok, HasValue, hm] at h
  simp only [writeBack, hm]
  cases rw
  · simp
  · rcases mtr with _ | _ | _ <;> cases wr <;> cases lv <;> cases ar <;> simp_all

/-- What one clock cycle does whenever it answers, as the synchronous update of R104. -/
theorem clockCycle_next {payload : State → IDEX} {miss : Option Word} {s t : State} (h : s.pc < s.stream.length)
    (hs : clockCycle payload miss s = .next t) :
    t = synchronous s.stream[s.pc] (payload (fetch s)) (miss.toList.map .decodeMiss) s := by
  simp only [clockCycle, h, if_true, runStages, andThen_eq_next] at hs
  obtain ⟨v, ⟨u, hu, hv⟩, ht⟩ := hs
  cases ht
  rw [writeBack_next hv, memoryAccess_next hu]
  cases miss <;>
    simp [synchronous, execute, decodeStage, fetch_of_lt h, State.latchCopy, Latch.copy, State.putIdex, State.putExmem,
      State.putIfid, State.advancePc, State.raise]

/-- A clock cycle answers whenever the latches that memory-access and write-back read meet R108. -/
theorem clockCycle_total {s : State} (he : EXMEM.Ok s.exmem.read) (hm : MEMWB.Ok s.memwb.read) (payload : State → IDEX)
    (miss : Option Word) : ∃ t, clockCycle payload miss s = .next t := by
  unfold clockCycle
  split
  · rename_i h
    have hx : (execute (decodeStage payload miss (fetch s))).exmem.read = s.exmem.read := by
      cases miss <;> simp [execute, decodeStage, fetch_of_lt h]
    have hw : (execute (decodeStage payload miss (fetch s))).memwb.read = s.memwb.read := by
      cases miss <;> simp [execute, decodeStage, fetch_of_lt h]
    obtain ⟨u, hu⟩ := memoryAccess_total (hx ▸ he)
    have hwu : u.memwb.read = s.memwb.read := by rw [memoryAccess_next hu]; exact hw
    obtain ⟨v, hv⟩ := writeBack_total (hwu ▸ hm)
    exact ⟨v.latchCopy, by simp [runStages, hu, hv]⟩
  · exact ⟨s, rfl⟩

/-- A cycle whose fetch index is past the stream leaves the state as it is (R103). -/
theorem clockCycle_ended {s : State} (h : s.stream.length ≤ s.pc) (p : State → IDEX) (miss : Option Word) :
    clockCycle p miss s = .next s := by
  simp [clockCycle, Nat.not_lt.2 h]

/-- The Bool check of a launch state answers true exactly for the states R43 admits. -/
theorem admittedCheck_iff (s : State) : s.admittedCheck = true ↔ s.Admitted := by
  simp only [State.admittedCheck, Bool.and_eq_true, decide_eq_true_eq, and_assoc]

/-- `cycles` is the run of the host's interface. -/
theorem cycles_eq_run (k : Nat) (s : State) : cycles k s = Host.Core.run core k s := by
  induction k generalizing s with
  | zero => rfl
  | succ k ih =>
    have h : Host.Core.run core (k + 1) s = andThen (cycleDriver s) (Host.Core.run core k) := by
      simp only [Host.Core.run]
      change _ = andThen (core.step s) _
      cases core.step s <;> rfl
    rw [h]
    show andThen (cycleDriver s) (cycles k) = _
    rw [show cycles k = Host.Core.run core k from funext ih]

/-- `Steps` says what the run of the host's interface answers. -/
theorem steps_iff_run (k : Nat) (s t : State) : Steps k s t ↔ Host.Core.run core k s = .next t := by
  rw [← cycles_eq_run]
  induction k generalizing s with
  | zero => exact ⟨fun h => congrArg _ h, fun h => Host.Outcome.next.inj h⟩
  | succ k ih =>
    show (∃ m, step s = .next m ∧ Steps k m t) ↔ andThen (cycleDriver s) (cycles k) = .next t
    simp only [andThen_eq_next, ih]
    rfl

end Sys2Proof.Laws
end

