-- ==== Sys2Proof/Tests/Slice0.lean ====
section
/-! SUPPORT. The model's own tests. Every expected value is taken from spec/ (the vector or rule is named), and the last
part shows, for each statement of Certificates/Slice0/Obligations.lean that has hypotheses, that they can be met. -/

namespace Sys2Proof.Tests

open Sys2Proof.Machine Sys2Proof.Safety

/-! ## Helpers -/

/-- The reset state with 1024 cells, `n` no-op words left to fetch, and `w` in the decode stage. -/
def holding (w : Word) (n : Nat) : State :=
  { State.resetState 1024 (List.replicate n Word.noop) with ifid := ⟨IFID.noop, { iw := w }⟩ }

/-- `holding` with another word first in the stream. -/
def feeding (w v : Word) (n : Nat) : State :=
  { holding w n with stream := v :: List.replicate n Word.noop }

/-- A NOOP cycle with this payload to execute. -/
def executing (d : IDEX) : State := { holding Word.noop 4 with idex := ⟨IDEX.noop, d⟩ }

/-- A NOOP cycle with this payload in memory-access. -/
def accessing (e : EXMEM) : State := { holding Word.noop 4 with exmem := ⟨EXMEM.noop, e⟩ }

/-- A NOOP cycle with this payload to write back. -/
def writingBack (m : MEMWB) : State := { holding Word.noop 4 with memwb := ⟨MEMWB.noop, m⟩ }

/-- What a test reads off an outcome. -/
def seen {α : Type} (f : State → α) (o : Host.Outcome State Fault Refusal) : Option α :=
  match o with
  | .next t => some (f t)
  | .fault _ => none
  | .refused _ => none

/-- The payloads of `lb $10, ea` and of `sb` with the value `v`, as execute hands them on (V5). -/
def loadOf (ea : Word) : EXMEM := ⟨0x810A0000, true, false, some true, true, some ea, some 0, some 10⟩
def storeAt (ea v : Word) : EXMEM := ⟨0xA1020000, false, true, none, false, some ea, some v, none⟩

/-- The payloads of a register write from the ALU and from a load (V6). -/
def aluWrite (r : RegIdx) (v : Word) : MEMWB := ⟨0x00430820, some false, true, none, some v, some r⟩
def loadWrite (r : RegIdx) (b : Byte) : MEMWB := ⟨0x810A0000, some true, true, some b, some 0x104, some r⟩

/-! ## Well-formedness: for each check a term that it refuses

An operand out of its range is not a term of `Instr`: the types carry those checks (`Laws.wellFormed_all`). -/

/-- R7: at least one cell. -/
theorem test_memSize_zero_refused : ¬MemSizeOk 0 := by decide
/-- R7: at most 2^31 cells. -/
theorem test_memSize_above_refused : ¬MemSizeOk (2 ^ 31 + 1) := by decide
/-- R7: both ends of the range are admitted. -/
theorem test_memSize_ends_admitted : MemSizeOk 1 ∧ MemSizeOk (2 ^ 31) := by decide
/-- R71, R80: the ends of the operand ranges are well formed. -/
theorem test_operand_ends_wellFormed :
    (Instr.lb 31 0 (-32768)).WellFormed ∧ (Instr.sb 0 31 32767).WellFormed ∧ (Instr.add 31 31 31 31).WellFormed := by
  decide
/-- R108 (a): both enables at once are refused. -/
theorem test_both_enables_refused :
    ¬IDEX.Ok { IDEX.noop with iw := 1, ctl := { Control.noop with memRead := true, memWrite := true } } := by decide
/-- R108 (b): `ALUOp = 2` with a word that is no `add` and no `sub` is refused. -/
theorem test_byFunct_needs_arith_word : ¬IDEX.Ok { rShapePayload 0x21 Control.arith 2 3 1 State.reset with iw := 0x21 } := by
  decide
/-- R108 (c): a load without an address is refused. -/
theorem test_load_needs_address : ¬EXMEM.Ok { loadOf 0 with aluResult := none } := by decide
/-- R108 (d): a register write without a destination is refused. -/
theorem test_write_needs_destination : ¬MEMWB.Ok { aluWrite 1 5 with writeReg := none } := by decide
/-- R108 (e): a zero word with live control signals is refused. -/
theorem test_zero_word_is_noop : ¬MEMWB.Ok { aluWrite 1 5 with iw := 0 } := by decide
/-- The clauses of log 7: a load whose ALU result would be `DC` is refused. -/
theorem test_feeds_needs_alu : ¬IDEX.Feeds { IDEX.noop with iw := 5, ctl := { Control.noop with memRead := true } } := by
  decide
/-- Canonical memory: an entry equal to the reset contents, and a repeated address, are refused (log 12). -/
theorem test_memory_canonical : ¬Memory.wf [(0x104, 0x04)] ∧ ¬Memory.wf [(3, 1), (3, 2)] ∧ Memory.wf [(3, 1), (5, 9)] := by
  decide

/-! ## Decoding: words written out bit by bit from the encoding column of spec/opcode_table.json -/

/-- 000000 sssss ttttt ddddd hhhhh 100000 with s = 2, t = 3, d = 1, h = 31 (V1, V2). -/
theorem test_decode_add : decode 0b00000000010000110000111111100000 = .instr (.add 2 3 1 31) := by decide
/-- 000000 sssss ttttt ddddd hhhhh 100010 with s = 1, t = 2, d = 4, h = 0 (V1). -/
theorem test_decode_sub : decode 0b00000000001000100010000000100010 = .instr (.sub 1 2 4 0) := by decide
/-- 100000 sssss ttttt iiiiiiiiiiiiiiii with s = 8, t = 10, i = -4 (V1). -/
theorem test_decode_lb : decode 0b10000001000010101111111111111100 = .instr (.lb 8 10 (-4)) := by decide
/-- 101000 sssss ttttt iiiiiiiiiiiiiiii with s = 8, t = 2, i = 759 (V9). -/
theorem test_decode_sb : decode 0b10100001000000100000001011110111 = .instr (.sb 8 2 759) := by decide
/-- The whole zero word (V1). -/
theorem test_decode_nop : decode 0b00000000000000000000000000000000 = .instr .nop := by decide
/-- The unsupported words of V2, each rejected by its own name. -/
theorem test_decode_unsupported :
    ∀ w ∈ [0x00000021#32, 0x00000800, 0x00000040, 0x0000000C, 0x04000020, 0x8D090000, 0x84000000, 0xFFFFFFFF],
      decode w = .decodeMiss w := by
  simp only [List.forall_mem_cons]
  exact ⟨by decide, by decide, by decide, by decide, by decide, by decide, by decide, by decide, by simp⟩
/-- The fields of 0xFFFFFFFF and of 0x80008000 (V1). -/
theorem test_fields :
    fieldsOf 0xFFFFFFFF = ⟨0x3F, 31, 31, 31, 31, 0x3F, -1⟩ ∧ fieldsOf 0x80008000 = ⟨0x20, 0, 0, 16, 0, 0x00, -32768⟩ := by
  decide
/-- The table's numbering of bits, and no instruction of more than one word. -/
theorem test_decodeTableWord :
    decodeTableWord 32 0x00430820 = some (.add 2 3 1 0) ∧ decodeTableWord 32 0x21 = none ∧
    decodeTableWord 64 0x00430820 = none := by decide

/-! ## Decode stage (V3) -/

theorem test_add_decodes : seen (fun t => (t.idex.write, t.err)) (step (holding 0x00430820 1)) =
    some (⟨0x00430820, ⟨some true, some false, some .byFunct, false, false, some false, true⟩, some 0x102, some 0x103,
      none, some 3, some 1⟩, []) := by decide

theorem test_sub_decodes : seen (fun t => (t.idex.write, t.err)) (step (holding 0x00222022 1)) =
    some (⟨0x00222022, ⟨some true, some false, some .byFunct, false, false, some false, true⟩, some 0x101, some 0x102,
      none, some 2, some 4⟩, []) := by decide

theorem test_lb_decodes : seen (fun t => (t.idex.write, t.err)) (step (holding 0x810AFFFC 1)) =
    some (⟨0x810AFFFC, ⟨some false, some true, some .add, true, false, some true, true⟩, some 0x108, some 0x10A,
      some (-4), some 10, some 8⟩, []) := by decide

theorem test_sb_decodes : seen (fun t => (t.idex.write, t.err)) (step (holding 0xA1020000 1)) =
    some (⟨0xA1020000, ⟨none, some true, some .add, false, true, none, false⟩, some 0x108, some 0x102,
      some 0, some 2, some 8⟩, []) := by decide

theorem test_nop_decodes : seen (fun t => (t.idex.write, t.err)) (step (holding 0x00000000 1)) =
    some (IDEX.noop, []) := by decide

theorem test_unsupported_decodes : seen (fun t => (t.idex.write, t.errAt 1, t.fault)) (step (holding 0x8D090000 1)) =
    some ({ IDEX.noop with iw := 0x8D090000 }, [.decodeMiss 0x8D090000], true) := by decide

/-! ## Execute stage (V4) -/

/-- The `IDEX` payload of an arithmetic word with these operands. -/
def arithOn (iw a b : Word) : IDEX := ⟨iw, Control.arith, some a, some b, none, some 3, some 1⟩
/-- The `IDEX` payload of a memory word with this base and offset. -/
def addressOn (a : Word) (imm : Imm16) : IDEX := ⟨0x80000000, Control.load, some a, some 0, some imm, some 10, some 8⟩

theorem test_add_wraps : (executePayload (arithOn 0x00430820 0xFFFFFFFF 1)).aluResult = some 0 ∧
    (executePayload (arithOn 0x00430820 0x7FFFFFFF 1)).aluResult = some 0x80000000 := by decide
theorem test_sub_borrows : (executePayload (arithOn 0x00222022 0x101 0x102)).aluResult = some 0xFFFFFFFF ∧
    (executePayload (arithOn 0x00222022 0x80000000 1)).aluResult = some 0x7FFFFFFF := by decide
theorem test_address_signed : (executePayload (addressOn 0x108 (-4))).aluResult = some 0x104 ∧
    (executePayload (addressOn 0x108 (-32768))).aluResult = some 0xFFFF8108 ∧
    (executePayload (addressOn 0xFFFFFFFF 1)).aluResult = some 0 := by decide
theorem test_destination_selected : (executePayload (arithOn 0x00430820 0 0)).writeReg = some 1 ∧
    (executePayload (addressOn 0x108 0)).writeReg = some 10 ∧ (executePayload IDEX.noop).writeReg = none := by decide

/-! ## Memory-access stage (V5, MEM_SIZE = 1024) -/

/-- The last cell, and the first address out of range: reported, and the register write squashed. -/
theorem test_lb_access :
    seen (fun t => (t.memwb.write.loadedValue, t.memwb.write.regWrite, t.err)) (step (accessing (loadOf 0x3FF))) =
      some (some 0xFF, true, []) ∧
    seen (fun t => (t.memwb.write.loadedValue, t.memwb.write.regWrite, t.errAt 1)) (step (accessing (loadOf 0x400))) =
      some (none, false, [.addressOutOfRange 0x400]) := by
  exact ⟨by decide, by decide⟩

/-- The low byte is stored, an address out of range is reported and stores nothing, and storing the reset contents leaves
nothing listed (R51; log 12). -/
theorem test_sb_access :
    seen (fun t => (t.mem, t.err)) (step (accessing (storeAt 0x108 0x102))) = some ([(0x108, 0x02)], []) ∧
    seen (fun t => (t.mem, t.errAt 1)) (step (accessing (storeAt 0x400 0x102))) =
      some ([], [.addressOutOfRange 0x400]) ∧
    seen (fun t => t.mem) (step { accessing (storeAt 0x1FF 0x1FF) with mem := [(0x1FF, 0x00)] }) = some [] := by
  exact ⟨by decide, by decide, by decide⟩

/-! ## Write-back stage (V6) -/

theorem test_writeBack_register_zero : seen (fun t => (t.reg 0, t.reg 1)) (step (writingBack (aluWrite 0 0x203))) =
    some (0x203, 0x101) := by decide
theorem test_writeBack_zero_extends : seen (fun t => t.reg 3) (step (writingBack (loadWrite 3 0xFF))) = some 0xFF := by
  decide
/-- A load squashed by AddressOutOfRange writes nothing (V6). -/
theorem test_writeBack_squashed : seen (fun t => t.reg 10) (step (writingBack { loadWrite 10 0 with regWrite := false })) =
    some 0x10A := by decide
/-- Decode reads the old value in the cycle of the write-back (V10, d = 3). -/
theorem test_read_before_write : seen (fun t => (t.idex.read.readReg1Value, t.reg 1))
    (step { writingBack (aluWrite 1 0x205) with ifid := ⟨IFID.noop, { iw := 0x00222022 }⟩ }) =
    some (some 0x101, 0x205) := by decide

/-! ## The driver -/

/-- R44, S8. -/
theorem test_reset_values : State.reset.reg 0 = 0 ∧ State.reset.reg 10 = 0x10A ∧ State.reset.reg 31 = 0x11F ∧
    State.reset.cell 0x104 = 0x04 ∧ State.reset.cell 0x1FF = 0xFF ∧ State.reset.pc = 0 := by decide
/-- R103: an empty stream runs no cycle. -/
theorem test_empty_stream_stays : seen (fun t => (t.pc, t.cycle)) (step State.reset) = some (0, 0) := by decide
/-- R166, D19: two errors in one cycle, decode's first (V9). -/
theorem test_two_errors : seen (fun t => t.errAt 1)
    (step { accessing (storeAt 0xFFFFFFFF 0) with ifid := ⟨IFID.noop, { iw := 0x8D090000 }⟩ }) =
    some [.decodeMiss 0x8D090000, .addressOutOfRange 0xFFFFFFFF] := by decide
/-- R41, P1 cycle 2: the snapshot shows what the stages consumed and what they produced. -/
theorem test_snapshot_sides : (cycleSnapshot (feeding 0xA1020000 0x810AFFFC 4)).map (fun v => (v.ifid, v.idex.read)) =
    some (⟨⟨0x810AFFFC⟩, ⟨0xA1020000⟩⟩, IDEX.noop) := by decide
/-- R163, V11: an undrained instruction at the end of a run. -/
theorem test_streamExhausted : (holding 0x00430820 0).StreamExhaustedMidFlight ∧ ¬State.reset.StreamExhaustedMidFlight := by
  decide
/-- R164. -/
theorem test_ordinals : errorOrdinal .decodeMiss = 1 ∧ errorOrdinal .addressOutOfRange = 2 ∧
    errorOrdinal .streamExhaustedMidFlight = 3 := by decide
/-- U3: a launch state outside R108 that asks memory-access for an address it does not have. -/
theorem test_dontCare_refused : ∃ s : State, step s = .refused (.dontCareRead .address) :=
  ⟨accessing { loadOf 0 with aluResult := none }, rfl⟩
/-- The host's placement of a word: it runs in the next step after reset. -/
theorem test_withFetchWord : seen (fun t => (t.pc, t.idex.read.readReg1Value)) (step (State.reset.withFetchWord 32 0x00430820)) =
    some (1, some 0x102) := by decide

/-! ## Witnesses: the hypotheses of each statement of Certificates/Slice0/Obligations.lean can be met

The theorem is named after its statement. A statement without hypotheses has none. -/

/-- A state with work in every stage: `w` in decode, `lb $10, 0($8)` in execute, `sb $2, 0($8)` in memory-access,
`add $1, $2, $3` in write-back, and four words to fetch. -/
def busy (w : Word) : State :=
  { holding w 4 with
    idex  := ⟨IDEX.noop, ⟨0x810A0000, Control.load, some 0x108, some 0x10A, some 0, some 10, some 8⟩⟩
    exmem := ⟨EXMEM.noop, storeAt 0x108 0x102⟩
    memwb := ⟨MEMWB.noop, aluWrite 1 0x205⟩ }

/-- The invariant from its parts, each of them decidable. -/
theorem inv_of_check {s : State} (h : s.admittedCheck = true) (hw : IDEX.Feeds s.idex.write)
    (hr : IDEX.Feeds s.idex.read) : s.Inv := ⟨(Laws.admittedCheck_iff s).1 h, hw, hr⟩

theorem busy_inv (w : Word) : (busy w).Inv := by
  have h : (busy 0).admittedCheck = true := by decide
  exact inv_of_check h (by show IDEX.Feeds IDEX.noop; decide) (by show IDEX.Feeds (busy 0).idex.read; decide)

theorem busy_room (w : Word) : (busy w).pc < (busy w).stream.length ∧ (busy w).pc + 4 ≤ (busy w).stream.length := by
  show 0 < 4 ∧ 0 + 4 ≤ 4
  decide

theorem resetState_inv (ws : List Word) : (State.resetState 1024 ws).Inv := by
  have h : State.reset.admittedCheck = true := by decide
  exact ⟨⟨⟨by show MemSizeOk 1024; decide, Nat.zero_le _, Laws.reset_mem_wf 1024 ws, nofun⟩,
    ((Laws.admittedCheck_iff _).1 h).2⟩, by show IDEX.Feeds IDEX.noop; decide, by show IDEX.Feeds IDEX.noop; decide⟩

/-- An outcome that shows something is a next state. -/
theorem next_of_seen {o : Host.Outcome State Fault Refusal} (h : (seen (fun _ => ()) o).isSome = true) :
    ∃ t, o = .next t := by
  cases o with
  | next t => exact ⟨t, rfl⟩
  | fault r => exact nomatch r
  | refused r => exact nomatch h

/-- A state whose step answers, with what else a statement asks of it. -/
abbrev Answers (s : State) : Prop := s.pc < s.stream.length ∧ s.LatchesOk ∧ ∃ t, step s = .next t

theorem answers_of_check {s : State} (h : s.admittedCheck = true) (hp : s.pc < s.stream.length)
    (hs : (seen (fun _ => ()) (step s)).isSome = true) : Answers s :=
  ⟨hp, ((Laws.admittedCheck_iff s).1 h).2, next_of_seen hs⟩

theorem busy_answers (w : Word) : ∃ t, step (busy w) = .next t := by
  show ∃ t, cycleDriver (busy w) = .next t
  unfold cycleDriver
  rcases decode (busy w).ifid.read.iw with (_ | _ | _ | _ | _) | _ <;> exact ⟨_, rfl⟩

/-! ### Encoding and control -/

theorem witness_decodeInvertsEncode :
    Instr.WellFormed .nop ∧ (Instr.add 0 31 0 31).WellFormed ∧ (Instr.sub 31 0 31 0).WellFormed ∧
    (Instr.lb 31 0 (-32768)).WellFormed ∧ (Instr.sb 0 31 32767).WellFormed := by decide
theorem witness_encodeInvertsDecode : ∃ w i, decode w = .instr i ∧ i ≠ .nop := ⟨_, _, test_decode_add, by decide⟩
theorem witness_noopIsTheZeroWordOnly :
    (fieldsOf 0x00000800).opcode = 0 ∧ (fieldsOf 0x00000800).funct = 0 ∧ (0x00000800 : Word) ≠ 0 := by decide
theorem witness_unsupportedWordsAreNamed : ∃ w v, decode w = .decodeMiss v := ⟨0x21, 0x21, by decide⟩
theorem witness_shamtTakesNoPart : (busy 0).LatchesOk ∧ (busy 0).pc < (busy 0).stream.length :=
  ⟨(busy_inv 0).1.2, (busy_room 0).1⟩
theorem witness_controlTableFacts :
    (decode 0 = .instr .nop ∧ controlSignals 0 = some Control.noop) ∧
    (decode 0x00430820 = .instr (.add 2 3 1 0) ∧ controlSignals 0x00430820 = some Control.arith) ∧
    (decode 0x00222022 = .instr (.sub 1 2 4 0) ∧ controlSignals 0x00222022 = some Control.arith) ∧
    (decode 0x810AFFFC = .instr (.lb 8 10 (-4)) ∧ controlSignals 0x810AFFFC = some Control.load) ∧
    (decode 0xA1020000 = .instr (.sb 8 2 0) ∧ controlSignals 0xA1020000 = some Control.store) := by
  exact ⟨⟨by decide, by decide⟩, ⟨by decide, by decide⟩, ⟨by decide, by decide⟩, ⟨by decide, by decide⟩, by decide, by decide⟩

/-! ### The decode cycles and the step -/

theorem witness_nopDecodeCycle : (busy 0).pc < (busy 0).stream.length ∧ (busy 0).LatchesOk :=
  ⟨(busy_room 0).1, (busy_inv 0).1.2⟩
theorem witness_addDecodeCycle : (busy 0x00430820).pc < (busy 0x00430820).stream.length ∧ (busy 0x00430820).LatchesOk :=
  ⟨(busy_room _).1, (busy_inv _).1.2⟩
theorem witness_subDecodeCycle : (busy 0x00222022).pc < (busy 0x00222022).stream.length ∧ (busy 0x00222022).LatchesOk :=
  ⟨(busy_room _).1, (busy_inv _).1.2⟩
theorem witness_lbDecodeCycle : (busy 0x810AFFFC).pc < (busy 0x810AFFFC).stream.length ∧ (busy 0x810AFFFC).LatchesOk :=
  ⟨(busy_room _).1, (busy_inv _).1.2⟩
theorem witness_sbDecodeCycle : (busy 0xA1020000).pc < (busy 0xA1020000).stream.length ∧ (busy 0xA1020000).LatchesOk :=
  ⟨(busy_room _).1, (busy_inv _).1.2⟩
theorem witness_unsupportedDecodeCycle :
    (busy 0x21).pc < (busy 0x21).stream.length ∧ (busy 0x21).LatchesOk ∧ (busy 0x21).ifid.read.iw = 0x21 ∧
    decode 0x21 = .decodeMiss 0x21 := ⟨(busy_room _).1, (busy_inv _).1.2, rfl, by decide⟩
theorem witness_stepRunsTheDecodedInstruction :
    decode (holding 0x00430820 1).ifid.read.iw = .instr (.add 2 3 1 0) ∧
    ∃ (s : State) (h : s.pc < s.stream.length), (∃ t, step s = .next t) ∧ decode s.stream[s.pc] = .instr (.sub 1 2 4 0) :=
  ⟨by decide, feeding 0xA1020000 0x00222022 4, by decide, next_of_seen (by decide), by decide⟩
theorem witness_fetchTakesTheNextWord : ∃ s : State, s.pc < s.stream.length ∧ ∃ t, step s = .next t :=
  ⟨busy 0x21, (busy_room _).1, busy_answers _⟩

/-! ### The stage functions -/

/-- The four cases of R97: a `DC` operation, `ALUOp = 0`, `ALUOp = 2` with each `funct`, and another `funct`. -/
theorem witness_aluResultRule :
    IDEX.noop.ctl.aluOp = none ∧ (addressOn 0x108 (-4)).ctl.aluOp = some .add ∧
    (arithOn 0x00430820 1 2).ctl.aluOp = some .byFunct ∧ (0x00430820 : Word).toNat % 64 = 0x20 ∧
    (0x00222022 : Word).toNat % 64 = 0x22 ∧ (0x21 : Word).toNat % 64 ≠ 0x20 ∧ (0x21 : Word).toNat % 64 ≠ 0x22 ∧
    (arithOn 0x00430820 1 2).ctl.aluSrc = some false ∧ (arithOn 0x00430820 1 2).readReg1Value = some 1 := by decide
/-- Each value of `RegDst`. -/
theorem witness_executeHandsOn :
    ∃ s₁ s₂ s₃ : State, (Answers s₁ ∧ s₁.idex.read.ctl.regDst = some false) ∧
      (Answers s₂ ∧ s₂.idex.read.ctl.regDst = some true) ∧ (Answers s₃ ∧ s₃.idex.read.ctl.regDst = none) :=
  ⟨busy 0, executing (arithOn 0x00430820 1 2), executing IDEX.noop,
    ⟨⟨(busy_room 0).1, (busy_inv 0).1.2, busy_answers 0⟩, rfl⟩,
    ⟨answers_of_check (by decide) (by decide) (by decide), rfl⟩,
    ⟨answers_of_check (by decide) (by decide) (by decide), rfl⟩⟩
theorem witness_effectiveAddressRule : ∃ c, c = Control.load ∨ c = Control.store := ⟨Control.store, .inr rfl⟩
/-- A load and a store at the last cell and at `MEM_SIZE`, and a word that is neither. -/
theorem witness_memoryAccessStage :
    Answers (accessing (loadOf 0x3FF)) ∧ Answers (accessing (loadOf 0x400)) ∧ Answers (accessing (storeAt 0x3FF 0x102)) ∧
    Answers (accessing (storeAt 0x400 0x102)) ∧ Answers (accessing EXMEM.noop) :=
  ⟨answers_of_check (by decide) (by decide) (by decide), answers_of_check (by decide) (by decide) (by decide),
    answers_of_check (by decide) (by decide) (by decide), answers_of_check (by decide) (by decide) (by decide),
    answers_of_check (by decide) (by decide) (by decide)⟩
/-- A word that writes nothing, one that writes the loaded value, and one that writes the ALU result to register 0. -/
theorem witness_writeBackStage :
    Answers (writingBack MEMWB.noop) ∧ Answers (writingBack (loadWrite 3 0xFF)) ∧ Answers (writingBack (aluWrite 0 0x203)) :=
  ⟨answers_of_check (by decide) (by decide) (by decide), answers_of_check (by decide) (by decide) (by decide),
    answers_of_check (by decide) (by decide) (by decide)⟩
theorem witness_latchCopyEndsTheCycle : ∃ s : State, s.pc < s.stream.length ∧ ∃ t, step s = .next t :=
  ⟨busy 0x00430820, (busy_room _).1, busy_answers _⟩
/-- `sub $4, $1, $2` and `add $3, $2, $1` in decode while `x[1]` is written back. -/
theorem witness_decodeReadsBeforeWriteBack :
    ((busy 0x00222022).pc < (busy 0x00222022).stream.length ∧ (∃ t, step (busy 0x00222022) = .next t) ∧
      registerWrite (busy 0x00222022).memwb.read = some (1, 0x205) ∧
      decode (busy 0x00222022).ifid.read.iw = .instr (.sub 1 2 4 0) ∧ (fieldsOf 0x00222022).rs = 1) ∧
    (∃ t, step (busy 0x00411820) = .next t) ∧ decode (busy 0x00411820).ifid.read.iw = .instr (.add 2 1 3 0) ∧
      (fieldsOf 0x00411820).rt = 1 :=
  ⟨⟨(busy_room _).1, busy_answers _, by decide, by decide, by decide⟩, busy_answers _, by decide, by decide⟩

/-! ### Passages -/

theorem witness_fourCyclesOfLatency : (busy 0).Inv ∧ (busy 0).pc + 4 ≤ (busy 0).stream.length :=
  ⟨busy_inv 0, (busy_room 0).2⟩
theorem witness_addWritesTheSum : (busy 0x00430820).Inv ∧ (busy 0x00430820).pc + 4 ≤ (busy 0x00430820).stream.length :=
  ⟨busy_inv _, (busy_room _).2⟩
theorem witness_subWritesTheDifference :
    (busy 0x00222022).Inv ∧ (busy 0x00222022).pc + 4 ≤ (busy 0x00222022).stream.length := ⟨busy_inv _, (busy_room _).2⟩
/-- The last cell: `0x108 + 759 = 1023`. -/
theorem witness_lbLoadsTheByte : ∃ s : State, s.Inv ∧ s.pc + 4 ≤ s.stream.length ∧
    (effectiveAddress (s.reg 8) 759).toNat < s.memSize := ⟨busy 0, busy_inv 0, (busy_room 0).2, by decide⟩
/-- The first address out of range: `0x108 + 760 = 1024`. -/
theorem witness_lbOutOfRange : ∃ s : State, s.Inv ∧ s.pc + 4 ≤ s.stream.length ∧
    s.memSize ≤ (effectiveAddress (s.reg 8) 760).toNat := ⟨busy 0, busy_inv 0, (busy_room 0).2, by decide⟩
theorem witness_sbStoresTheLowByte : ∃ s : State, s.Inv ∧ s.pc + 4 ≤ s.stream.length ∧
    (effectiveAddress (s.reg 8) 759).toNat < s.memSize := ⟨busy 0, busy_inv 0, (busy_room 0).2, by decide⟩
/-- Below zero: `0 - 1` from register 0 is the greatest address. -/
theorem witness_sbOutOfRange : ∃ s : State, s.Inv ∧ s.pc + 4 ≤ s.stream.length ∧
    s.memSize ≤ (effectiveAddress (s.reg 0) (-1)).toNat := ⟨busy 0, busy_inv 0, (busy_room 0).2, by decide⟩
theorem witness_nopDoesNothing : (busy 0).Inv ∧ (busy 0).pc + 4 ≤ (busy 0).stream.length := ⟨busy_inv 0, (busy_room 0).2⟩
theorem witness_unsupportedWordIsSkipped : (busy 0x21).Inv ∧ (busy 0x21).ifid.read.iw = 0x21 ∧
    decode 0x21 = .decodeMiss 0x21 ∧ (busy 0x21).pc + 4 ≤ (busy 0x21).stream.length :=
  ⟨busy_inv _, rfl, by decide, (busy_room _).2⟩
/-- The load in execute and the store in memory-access act on address 0x108. -/
theorem witness_loadSeesTheStoreBeforeIt : (busy 0).Inv ∧ (busy 0).pc + 2 ≤ (busy 0).stream.length ∧
    (busy 0).exmem.read.memWrite = true ∧ (busy 0).exmem.read.aluResult = some 0x108 ∧
    (busy 0).exmem.read.storeValue = some 0x102 ∧ (busy 0).idex.read.ctl.memRead = true ∧
    (executePayload (busy 0).idex.read).aluResult = some 0x108 ∧ (0x108 : Word).toNat < (busy 0).memSize :=
  ⟨busy_inv 0, by decide, rfl, rfl, rfl, rfl, by decide, by decide⟩

/-! ### Reset, invariants and runs -/

/-- Both ends of the register range and of memory. -/
theorem witness_resetValues : 1 ≤ (1 : RegIdx).toNat ∧ 1 ≤ (31 : RegIdx).toNat ∧ 0 < 1024 ∧ 1023 < 1024 := by decide
theorem witness_resetMeetsInvariants : MemSizeOk 1 ∧ MemSizeOk (2 ^ 31) := by decide
theorem witness_stepKeepsInv : (busy 0xA1020000).Inv ∧ ∃ t, step (busy 0xA1020000) = .next t :=
  ⟨busy_inv _, busy_answers _⟩
theorem witness_stagesTrackTheStream :
    ∃ s : State, TracksStream s ∧ s.pc < s.stream.length ∧ ∃ t, step s = .next t :=
  ⟨State.resetState 1024 [0xA1020000, 0x00430820], by decide, by decide, next_of_seen (by decide)⟩
theorem witness_stepAlwaysAnswers : (busy 0).LatchesOk := (busy_inv 0).1.2
theorem witness_onlyDontCareIsRefused : ∃ s r, step s = .refused r := ⟨_, _, test_dontCare_refused.choose_spec⟩
theorem witness_runIsExactlyNCycles : (busy 0).Inv ∧ (busy 0).pc = 0 ∧ (busy 0).stream.length = 4 := ⟨busy_inv 0, rfl, rfl⟩
theorem witness_endedRunStays : (holding 0x00430820 0).stream.length ≤ (holding 0x00430820 0).pc := by decide
theorem witness_streamIsReadOnly : ∃ t, step (busy 0xA1020000) = .next t := busy_answers _
theorem witness_faultIsSticky : ∃ t, step { busy 0x21 with err := [(0, .decodeMiss 7)], fault := true } = .next t :=
  next_of_seen (by decide)
/-- Both errors in one cycle, as in `test_two_errors`, and none. -/
theorem witness_errorsOfOneCycle :
    Answers { accessing (storeAt 0xFFFFFFFF 0) with ifid := ⟨IFID.noop, { iw := 0x8D090000 }⟩ } ∧
    ErrorsDated (accessing (storeAt 0xFFFFFFFF 0)) ∧ (storeAt 0xFFFFFFFF 0).aluResult = some 0xFFFFFFFF ∧
    Answers (accessing EXMEM.noop) ∧ ErrorsDated (accessing EXMEM.noop) ∧ EXMEM.noop.aluResult = none :=
  ⟨answers_of_check (by decide) (by decide) (by decide), by decide, rfl,
    answers_of_check (by decide) (by decide) (by decide), by decide, rfl⟩
theorem witness_errorReportIsNotRead : ∃ t, step (busy 0x21) = .next t := busy_answers _
/-- An end state with an `add` left in decode. -/
theorem witness_streamExhaustedByLastFourWords : ∃ s : State, TracksStream s ∧ s.pc = s.stream.length ∧
    s.StreamExhaustedMidFlight :=
  ⟨{ State.resetState 1024 [0x00430820] with pc := 1, ifid := ⟨⟨0x00430820⟩, ⟨0x00430820⟩⟩ }, by decide, by decide, by decide⟩
theorem witness_noopStreamChangesNothing :
    AllNoop (State.resetState 1024 [0, 0, 0]) ∧ ∀ w ∈ (State.resetState 1024 [0, 0, 0]).stream, w = 0 :=
  ⟨⟨rfl, rfl, rfl, rfl⟩, by simp [State.resetState]⟩
theorem witness_memoryPrimitives : (0x3FF : Word).toNat < State.reset.memSize ∧ State.reset.memSize ≤ (0x400 : Word).toNat := by
  decide
theorem witness_snapshotIsTakenBeforeTheCopy : (busy 0).pc < (busy 0).stream.length ∧
    ∃ m, runStages noopPayload none (busy 0) = .next m := ⟨(busy_room 0).1, next_of_seen (by decide)⟩
/-- An admitted state, and one whose address is missing. -/
theorem witness_launchAdmitsExactlyR43 : (busy 0).Admitted ∧ ¬(accessing { loadOf 0 with aluResult := none }).Admitted :=
  ⟨(busy_inv 0).1, fun h => absurd ((Laws.admittedCheck_iff _).2 h) (by decide)⟩

/-! ### The program-order view -/

theorem witness_cycleIsOneProgramOrderStep : (busy 0x00430820).Inv ∧ (busy 0x00430820).pc < (busy 0x00430820).stream.length :=
  ⟨busy_inv _, (busy_room _).1⟩
/-- Writes of registers 1 and 10 are queued; the word in decode reads registers 2 and 3. -/
theorem witness_hazardFreeCycleIsSequential : (busy 0x00430820).Inv ∧
    (busy 0x00430820).pc < (busy 0x00430820).stream.length ∧
    (queuedView (busy 0x00430820)).oldest = some (1, 0x205) ∧
    ((queuedView (busy 0x00430820)).newest.map Prod.fst) = some 10 ∧
    NoPendingSource (queuedView (busy 0x00430820)) (runsAs (busy 0x00430820).ifid.read.iw) :=
  ⟨busy_inv _, (busy_room _).1, by decide, by decide, by decide⟩
theorem witness_runMatchesProgramOrder : ∃ s : State, s.Inv ∧ AllNoop s ∧ s.pc = 0 ∧ s.stream.length = 2 :=
  ⟨State.resetState 1024 [0xA1020000, 0x00430820], resetState_inv _, ⟨rfl, rfl, rfl, rfl⟩, rfl, rfl⟩

/-- A hazard-safe program whose fifth word reads what its first word writes. -/
def safeProgram : List Instr := [.add 2 3 1 0, .nop, .lb 8 5 759, .nop, .sb 8 1 0]

theorem safeProgram_hazardSafe : HazardSafe safeProgram := by
  intro j i hij hj r hr
  have hlt : j < 5 := by
    by_contra h
    have : safeProgram.getD j .nop = .nop := by simp [safeProgram, List.getD, Nat.le_of_not_lt h]
    rw [this] at hr
    simp [sources] at hr
  interval_cases j <;> interval_cases i <;> simp [safeProgram, sources, destination] at *
  all_goals rcases hr with rfl | rfl <;> decide

theorem witness_hazardSafeRunIsSequential :
    ∃ s : State, s.Inv ∧ AllNoop s ∧ s.pc = 0 ∧ FaultFree s ∧
      s.stream = (safeProgram ++ List.replicate 4 Instr.nop).map encode ∧ HazardSafe safeProgram ∧
      AddressesInRange s.memSize safeProgram ⟨s.regs, s.mem⟩ := by
  refine ⟨State.resetState 1024 ((safeProgram ++ List.replicate 4 Instr.nop).map encode), resetState_inv _,
    ⟨rfl, rfl, rfl, rfl⟩, rfl, rfl, rfl, safeProgram_hazardSafe, ?_⟩
  simp only [safeProgram, AddressesInRange, accessAddress, Option.some.injEq]
  refine ⟨by simp, by simp, ?_, by simp, ?_, trivial⟩
  · rintro _ rfl
    decide
  · rintro _ rfl
    decide

end Sys2Proof.Tests
end

/-! The words, the cycle and the error report of one step, and the statements of 10_state.md settled from them. -/

namespace Sys2Proof.Proofs

open Sys2Proof.Machine Sys2Proof.Safety Sys2Proof.Laws

/-! ## The word of a decoded instruction (R72, R73, R82) -/

/-- The I-shape word of a word's own fields is the word. -/
theorem iShapeWord_fieldsOf (w : Word) :
    iShapeWord (fieldsOf w).opcode (fieldsOf w).rs (fieldsOf w).rt (fieldsOf w).immediate = w := by
  refine BitVec.eq_of_getLsbD_eq fun k hk => ?_
  simp only [iShapeWord, fieldsOf, BitVec.getLsbD_or, BitVec.getLsbD_shiftLeft, BitVec.getLsbD_setWidth,
    BitVec.getLsbD_extractLsb']
  interval_cases k <;> simp

/-- The R-shape word of a word's own fields is the word, where the opcode is that of the R-shape. -/
theorem rShapeWord_fieldsOf {w : Word} (h : (fieldsOf w).opcode = opcodeR) :
    rShapeWord (fieldsOf w).rs (fieldsOf w).rt (fieldsOf w).rd (fieldsOf w).shamt (fieldsOf w).funct = w := by
  have rebuilt : (fieldsOf w).opcode.setWidth 32 <<< 26 |||
      rShapeWord (fieldsOf w).rs (fieldsOf w).rt (fieldsOf w).rd (fieldsOf w).shamt (fieldsOf w).funct = w := by
    refine BitVec.eq_of_getLsbD_eq fun k hk => ?_
    simp only [rShapeWord, fieldsOf, BitVec.getLsbD_or, BitVec.getLsbD_shiftLeft, BitVec.getLsbD_setWidth,
      BitVec.getLsbD_extractLsb']
    interval_cases k <;> simp
  simpa [h] using rebuilt

/-- A word that decodes to an instruction is that instruction's word. -/
theorem encode_of_decode {w : Word} {i : Instr} (h : decode w = .instr i) : encode i = w := by
  rcases decode_cases w with ⟨hw, hd⟩ | ⟨-, ho, hf, hd⟩ | ⟨-, ho, hf, hd⟩ | ⟨-, ho, hd⟩ | ⟨-, ho, hd⟩ | ⟨-, -, hd⟩ <;>
    rw [hd] at h <;> cases h
  · exact hw.symm
  · simpa only [encode, hf] using rShapeWord_fieldsOf ho
  · simpa only [encode, hf] using rShapeWord_fieldsOf ho
  · simpa only [encode, ho] using iShapeWord_fieldsOf w
  · simpa only [encode, ho] using iShapeWord_fieldsOf w

/-- A decode-table miss names the word itself (R78). -/
theorem eq_of_decode_eq_decodeMiss {w v : Word} (h : decode w = .decodeMiss v) : v = w := by
  rcases decode_cases w with ⟨-, hd⟩ | ⟨-, -, -, hd⟩ | ⟨-, -, -, hd⟩ | ⟨-, -, hd⟩ | ⟨-, -, hd⟩ | ⟨-, -, hd⟩ <;>
    rw [hd] at h <;> cases h
  rfl

/-! ## What decode does with a word (R93 to R95) -/

/-- What decode writes to IDEX for an instruction. -/
def instrPayload : Instr → State → IDEX
  | .nop => noopPayload
  | .add rs rt rd shamt => rShapePayload (encode (.add rs rt rd shamt)) Control.arith rs rt rd
  | .sub rs rt rd shamt => rShapePayload (encode (.sub rs rt rd shamt)) Control.arith rs rt rd
  | .lb rs rt imm => iShapePayload (encode (.lb rs rt imm)) Control.load rs rt imm
  | .sb rs rt imm => iShapePayload (encode (.sb rs rt imm)) Control.store rs rt imm

/-- What decode writes to IDEX for a word. -/
def wordPayload (w : Word) : State → IDEX :=
  match decode w with
  | .instr i => instrPayload i
  | .decodeMiss v => bubblePayload v

/-- The word whose decode-table miss decode raises. -/
def missedWord (w : Word) : Option Word :=
  match decode w with
  | .instr _ => none
  | .decodeMiss v => some v

/-- The errors that decode raises for a word (R161). -/
def decodeErrors (w : Word) : List Error := (missedWord w).toList.map .decodeMiss

theorem exec_eq_clockCycle (i : Instr) (s : State) : exec i s = clockCycle (instrPayload i) none s := by
  cases i <;> rfl

/-- A step is the clock cycle of what decode does with the word it holds. -/
theorem step_eq_clockCycle (s : State) :
    step s = clockCycle (wordPayload s.ifid.read.iw) (missedWord s.ifid.read.iw) s := by
  unfold step cycleDriver wordPayload missedWord
  cases decode s.ifid.read.iw with
  | instr i => exact exec_eq_clockCycle i s
  | decodeMiss v => rfl

/-- Decode reads nothing of the state but the registers. -/
theorem wordPayload_congr (w : Word) {s t : State} (h : s.regs = t.regs) : wordPayload w s = wordPayload w t := by
  have hreg (r : RegIdx) : s.reg r = t.reg r := by rw [State.reg, h, State.reg]
  unfold wordPayload
  rcases decode w with (_ | _ | _ | _ | _) | _ <;>
    simp [instrPayload, noopPayload, bubblePayload, rShapePayload, iShapePayload, hreg]

/-- Decode hands on the word it holds. -/
theorem wordPayload_iw (w : Word) (s : State) : (wordPayload w s).iw = w := by
  unfold wordPayload
  cases hd : decode w with
  | instr i =>
    have payload_iw : (instrPayload i s).iw = encode i := by cases i <;> rfl
    exact payload_iw.trans (encode_of_decode hd)
  | decodeMiss v => exact eq_of_decode_eq_decodeMiss hd

/-- The operand snapshot of R93: a supported word other than `nop` reads `x[rs]` and `x[rt]`. -/
theorem wordPayload_operands {w : Word} {i : Instr} (s : State) (hd : decode w = .instr i) (hi : i ≠ .nop) :
    (wordPayload w s).readReg1Value = some (s.reg (fieldsOf w).rs) ∧
    (wordPayload w s).readReg2Value = some (s.reg (fieldsOf w).rt) := by
  obtain ⟨-, h⟩ | h := decode_cases w
  · exact absurd (Decoded.instr.inj (hd.symm.trans h)) hi
  · rcases h with ⟨-, -, -, h⟩ | ⟨-, -, -, h⟩ | ⟨-, -, h⟩ | ⟨-, -, h⟩ | ⟨-, -, h⟩ <;> rw [h] at hd <;> cases hd
    all_goals
      rw [wordPayload, h]
      exact ⟨rfl, rfl⟩

/-- Decode raises DecodeMiss exactly for an unsupported word, and names it. -/
theorem decodeErrors_eq_ite (w : Word) :
    decodeErrors w = if decode w = .decodeMiss w then [.decodeMiss w] else [] := by
  unfold decodeErrors missedWord
  cases hd : decode w with
  | instr i => simp
  | decodeMiss v =>
    obtain rfl := eq_of_decode_eq_decodeMiss hd
    simp

/-! ## What a step can do (R101 to R104) -/

/-- A step with a word left that answers is the synchronous update of R104. -/
theorem step_next_of_lt {s t : State} (h : s.pc < s.stream.length) (hs : step s = .next t) :
    t = synchronous s.stream[s.pc] (wordPayload s.ifid.read.iw s) (decodeErrors s.ifid.read.iw) s := by
  rw [step_eq_clockCycle] at hs
  have regs_fetch : (fetch s).regs = s.regs := by simp [fetch_of_lt h]
  rw [clockCycle_next h hs, wordPayload_congr _ regs_fetch, decodeErrors]

/-- Everything a step that answers can do: one cycle, or nothing once all words have been fetched. -/
theorem step_cases {s t : State} (hs : step s = .next t) :
    (∃ h : s.pc < s.stream.length,
      t = synchronous s.stream[s.pc] (wordPayload s.ifid.read.iw s) (decodeErrors s.ifid.read.iw) s) ∨
    (s.stream.length ≤ s.pc ∧ t = s) := by
  rcases Nat.lt_or_ge s.pc s.stream.length with h | h
  · exact .inl ⟨h, step_next_of_lt h hs⟩
  · rw [step_eq_clockCycle, clockCycle_ended h] at hs
    cases hs
    exact .inr ⟨h, rfl⟩

/-! ## When a step answers -/

/-- No `DC` stands where memory-access needs a value: an access has an address, and an in-range store a value. -/
def CanAccess (memSize : Nat) (e : EXMEM) : Prop :=
  e.memRead = true ∨ e.memWrite = true →
    ∃ ea, e.aluResult = some ea ∧ (e.memRead = false → ea.toNat < memSize → ∃ v, e.storeValue = some v)

/-- No `DC` stands where write-back needs a value. -/
def CanWriteBack (m : MEMWB) : Prop := m.regWrite = true → m.memToReg ≠ none ∧ ∃ p, registerWrite m = some p

theorem memoryAccess_answers_iff (s : State) : (∃ t, memoryAccess s = .next t) ↔ CanAccess s.memSize s.exmem.read := by
  rcases he : s.exmem.read with ⟨iw, mr, mw, mtr, rw, ea, sv, wr⟩
  simp only [memoryAccess, CanAccess, he]
  cases mr <;> cases mw <;> cases ea <;> simp
  case false.true.some ea =>
    simp only [storeByte, he, State.InRange, State.memWrite]
    by_cases hr : ea.toNat < s.memSize <;> cases sv <;> simp [hr]

theorem writeBack_answers_iff (s : State) : (∃ t, writeBack s = .next t) ↔ CanWriteBack s.memwb.read := by
  rcases hm : s.memwb.read with ⟨iw, mtr, rw, lv, ar, wr⟩
  simp only [writeBack, CanWriteBack, registerWrite, hm]
  cases rw
  · simp
  · rcases mtr with _ | _ | _ <;> cases wr <;> cases lv <;> cases ar <;> simp

/-- Whether a clock cycle answers depends on the fetch index and on what memory-access and write-back read. -/
theorem clockCycle_answers_iff {s : State} (h : s.pc < s.stream.length) (payload : State → IDEX) (miss : Option Word) :
    (∃ t, clockCycle payload miss s = .next t) ↔ CanAccess s.memSize s.exmem.read ∧ CanWriteBack s.memwb.read := by
  let u := execute (decodeStage payload miss (fetch s))
  have access_iff : (∃ m, memoryAccess u = .next m) ↔ CanAccess s.memSize s.exmem.read := by
    rw [memoryAccess_answers_iff]
    cases miss <;> simp [u, execute, decodeStage, fetch_of_lt h]
  have memwb_read {m : State} (hm : memoryAccess u = .next m) : m.memwb.read = s.memwb.read := by
    rw [memoryAccess_next hm]
    cases miss <;> simp [u, execute, decodeStage, fetch_of_lt h]
  simp only [clockCycle, h, if_true, runStages, andThen_eq_next]
  constructor
  · rintro ⟨t, v, ⟨m, hm, hv⟩, -⟩
    exact ⟨access_iff.1 ⟨m, hm⟩, memwb_read hm ▸ (writeBack_answers_iff m).1 ⟨v, hv⟩⟩
  · rintro ⟨ha, hw⟩
    obtain ⟨m, hm⟩ := access_iff.2 ha
    obtain ⟨v, hv⟩ := (writeBack_answers_iff m).2 (memwb_read hm ▸ hw)
    exact ⟨v.latchCopy, v, ⟨m, hm, hv⟩, rfl⟩

/-! ## The stages track the stream (R26, R105) -/

/-- One fetch later, every word was fetched one cycle earlier. -/
theorem fetchedBefore_succ {s t : State} (hstream : t.stream = s.stream) (hpc : t.pc = s.pc + 1) (j : Nat) :
    fetchedBefore t (j + 1) = fetchedBefore s j := by
  simp only [fetchedBefore, hstream, hpc, Nat.add_le_add_iff_right, Nat.add_sub_add_right]

/-- Settles O42: each latch takes the word that the stage before it held, and fetch takes the next one. -/
theorem stagesTrackTheStream : Obligations.StagesTrackTheStream := by
  unfold Obligations.StagesTrackTheStream
  rintro s t ⟨hifid, hidex, hexmem, -⟩ h hs
  obtain rfl := step_next_of_lt h hs
  have fetched : s.stream[s.pc] = fetchedBefore s 0 := by simp [fetchedBefore, h]
  have shift := fetchedBefore_succ (s := s)
    (t := synchronous s.stream[s.pc] (wordPayload s.ifid.read.iw s) (decodeErrors s.ifid.read.iw) s) rfl rfl
  exact ⟨fetched.trans (shift 0).symm, ((wordPayload_iw _ s).trans hifid).trans (shift 1).symm,
    hidex.trans (shift 2).symm, hexmem.trans (shift 3).symm⟩

/-! ## Reads in decode and the write-back of the same cycle (R104) -/

theorem get_applyWrite_same (regs : Vector Word 32) (r : RegIdx) (v : Word) :
    (applyWrite regs (some (r, v))).get r.toFin = v := by
  simp [applyWrite, Vector.get_eq_getElem]

/-- Settles O27: the snapshot is taken from the registers before the cycle, and write-back sets `r` in it. -/
theorem decodeReadsBeforeWriteBack : Obligations.DecodeReadsBeforeWriteBack := by
  unfold Obligations.DecodeReadsBeforeWriteBack
  intro s t r v i h hs hw hd hi
  obtain rfl := step_next_of_lt h hs
  obtain ⟨hrs, hrt⟩ := wordPayload_operands s hd hi
  refine ⟨?_, ?_, ?_⟩
  · rintro rfl
    exact hrs
  · rintro rfl
    exact hrt
  · simp only [State.reg, synchronous, hw, get_applyWrite_same]

/-! ## What no step changes -/

/-- Settles O47: neither a cycle nor the stutter after the last word writes the stream or `MEM_SIZE`. -/
theorem streamIsReadOnly : Obligations.StreamIsReadOnly := by
  unfold Obligations.StreamIsReadOnly
  intro s t hs
  rcases step_cases hs with ⟨h, rfl⟩ | ⟨-, rfl⟩ <;> exact ⟨rfl, rfl⟩

/-! ## The error report (R40, R160 to R166) -/

/-- Settles O48: a cycle raises decode's errors and then memory-access's; the stutter raises none. -/
theorem faultIsSticky : Obligations.FaultIsSticky := by
  unfold Obligations.FaultIsSticky
  intro s t hs
  rcases step_cases hs with ⟨h, rfl⟩ | ⟨-, rfl⟩
  · exact ⟨decodeErrors s.ifid.read.iw ++ accessErrors s.memSize s.exmem.read, rfl, rfl⟩
  · exact ⟨[], by simp, by simp⟩

/-- In a dated report, `Err` of the current cycle is what has been appended for it. -/
theorem errAt_of_append {s t : State} (hdated : ErrorsDated s) {raised : List Error}
    (h : t.err = s.err ++ raised.map (fun e => (s.cycle + 1, e))) : t.errAt (s.cycle + 1) = raised := by
  have old_dropped : s.err.filter (fun p => p.1 == s.cycle + 1) = [] := by
    refine List.filter_eq_nil_iff.2 fun p hp => ?_
    have := hdated p hp
    simp only [beq_iff_eq]
    omega
  simp [State.errAt, h, old_dropped, List.filter_map, Function.comp_def]

/-- A cycle keeps the error report dated. -/
theorem errorsDated_synchronous {s : State} (hdated : ErrorsDated s) (w : Word) (p : IDEX) (missed : List Error) :
    ErrorsDated (synchronous w p missed s) := by
  intro q hq
  simp only [synchronous, List.mem_append, List.mem_map] at hq
  rcases hq with hq | ⟨e, -, rfl⟩
  · exact Nat.le_succ_of_le (hdated q hq)
  · exact le_rfl

/-- Settles O49: the cycle appends decode's errors and memory-access's, and no older entry is of this cycle. -/
theorem errorsOfOneCycle : Obligations.ErrorsOfOneCycle := by
  unfold Obligations.ErrorsOfOneCycle
  intro s t _ hdated h hs
  obtain rfl := step_next_of_lt h hs
  refine ⟨errorsDated_synchronous hdated _ _ _, decodeErrors s.ifid.read.iw, accessErrors s.memSize s.exmem.read,
    errAt_of_append hdated rfl, decodeErrors_eq_ite _, ?_, ?_⟩
  · intro ea hea
    simp only [accessErrors, hea]
  · intro hea
    simp only [accessErrors, hea]

/-- Settles O50: neither whether a cycle answers nor any field of its synchronous update but the report reads the
report. -/
theorem errorReportIsNotRead : Obligations.ErrorReportIsNotRead := by
  unfold Obligations.ErrorReportIsNotRead
  intro s t err fault hs
  let s' : State := { s with err := err, fault := fault }
  rcases step_cases hs with ⟨h, rfl⟩ | ⟨h, rfl⟩
  · have answers : ∃ t', step s' = .next t' := by
      rw [step_eq_clockCycle] at hs ⊢
      exact (clockCycle_answers_iff (s := s') h _ _).2 ((clockCycle_answers_iff h _ _).1 ⟨_, hs⟩)
    obtain ⟨t', ht'⟩ := answers
    refine ⟨t'.err, t'.fault, ht'.trans (congrArg _ ?_)⟩
    rw [step_next_of_lt (s := s') h ht', wordPayload_congr s.ifid.read.iw (s := s') (t := s) rfl]
    rfl
  · refine ⟨err, fault, ?_⟩
    rw [step_eq_clockCycle]
    exact clockCycle_ended (s := s') h _ _

/-! ## The snapshot of a cycle (R41, R101) -/

/-- The stage functions write no read side and do not end the cycle (R32). -/
theorem runStages_keeps {payload : State → IDEX} {miss : Option Word} {s m : State} (h : s.pc < s.stream.length)
    (hm : runStages payload miss s = .next m) :
    m.ifid.read = s.ifid.read ∧ m.idex.read = s.idex.read ∧ m.exmem.read = s.exmem.read ∧
    m.memwb.read = s.memwb.read ∧ m.cycle = s.cycle := by
  obtain ⟨u, hu, hw⟩ := andThen_eq_next.1 hm
  rw [writeBack_next hw, memoryAccess_next hu]
  cases miss <;> simp [execute, decodeStage, fetch_of_lt h]

/-- Settles O54: the copy keeps the write sides, and the read sides of `s` are those the stages left. -/
theorem snapshotIsTakenBeforeTheCopy : Obligations.SnapshotIsTakenBeforeTheCopy := by
  unfold Obligations.SnapshotIsTakenBeforeTheCopy
  intro payload miss s m h hm
  obtain ⟨hifid, hidex, hexmem, hmemwb, hcycle⟩ := runStages_keeps h hm
  refine ⟨m.latchCopy, by simp [clockCycle, h, hm], ?_, hifid, hidex, hexmem, hmemwb⟩
  simp only [Snapshot.between, Snapshot.ofStages, ← hifid, ← hidex, ← hexmem, ← hmemwb, ← hcycle]
  rfl

/-! ## Reset and launch (R43, R44) -/

theorem reg_resetState (memSize : Nat) (stream : List Word) (n : RegIdx) :
    (State.resetState memSize stream).reg n = resetReg n.toFin := by
  simp [State.reg, State.resetState, Vector.get_eq_getElem]

/-- R23 for every register but register 0. -/
theorem toNat_resetReg {n : RegIdx} (h : 1 ≤ n.toNat) : (resetReg n.toFin).toNat = 0x100 + n.toNat := by
  have hn : n.toNat ≠ 0 := by omega
  have := n.isLt
  simp only [resetReg, BitVec.val_toFin, hn, if_false, BitVec.toNat_ofNat]
  omega

/-- Settles O38: the registers by R23, the memory cells by R51, and the rest as `State.resetState` writes it. -/
theorem resetValues : Obligations.ResetValues := by
  unfold Obligations.ResetValues
  intro memSize stream
  refine ⟨reg_resetState memSize stream 0, fun n hn => ?_, rfl, fun a _ => ?_, rfl, rfl, rfl, rfl, fun _ => rfl, rfl, rfl⟩
  · rw [reg_resetState, toNat_resetReg hn]
  · simp [State.cell, State.resetState, Memory.read, Memory.unlisted]

/-- The reset state meets the invariant: every latch side holds its NOOP payload and memory lists no cell. -/
theorem resetState_inv {memSize : Nat} (h : MemSizeOk memSize) (stream : List Word) :
    (State.resetState memSize stream).Inv := by
  have idex_ok : IDEX.Ok IDEX.noop := by decide
  have exmem_ok : EXMEM.Ok EXMEM.noop := by decide
  have memwb_ok : MEMWB.Ok MEMWB.noop := by decide
  have feeds : IDEX.Feeds IDEX.noop := by decide
  exact ⟨⟨⟨h, Nat.zero_le _, reset_mem_wf memSize stream, nofun⟩, idex_ok, idex_ok, exmem_ok, exmem_ok, memwb_ok,
    memwb_ok⟩, feeds, feeds⟩

/-- Settles O39: at fetch index 0 no word has been fetched, and the report is empty. -/
theorem resetMeetsInvariants : Obligations.ResetMeetsInvariants := by
  unfold Obligations.ResetMeetsInvariants
  exact ⟨fun memSize stream h => ⟨resetState_inv h stream, ⟨rfl, rfl, rfl, rfl⟩, nofun⟩, resetState_inv (by decide) []⟩

/-- Settles O55: the Bool check of launch decides `State.Admitted`. -/
theorem launchAdmitsExactlyR43 : Obligations.LaunchAdmitsExactlyR43 := by
  unfold Obligations.LaunchAdmitsExactlyR43
  intro s
  constructor
  · intro h
    simp [launch, (admittedCheck_iff s).2 h]
  · intro h
    simp [launch, mt (admittedCheck_iff s).1 h]

end Sys2Proof.Proofs

/-! The two memory primitives, what memory-access and execute hand on, and the statements of 20_memory.md settled from
them. -/

namespace Sys2Proof.Proofs

open Sys2Proof.Machine Sys2Proof.Safety Sys2Proof.Laws

/-! ## `MemRead` and `MemWrite` (R50, R52, R53) -/

theorem memRead_of_inRange {s : State} {a : Word} (h : s.InRange a) : s.memRead a = some (s.cell a.toNat) := if_pos h

theorem memRead_of_not_inRange {s : State} {a : Word} (h : ¬s.InRange a) : s.memRead a = none := if_neg h

/-- An in-range write stores the low byte of the value (R53). -/
theorem memWrite_of_inRange {s : State} {a : Word} (h : s.InRange a) (v : Word) :
    s.memWrite a v = some { s with mem := s.mem.write a.toNat (v.setWidth 8) } := by
  rw [State.memWrite, if_pos h, lowByte_eq]

theorem memWrite_of_not_inRange {s : State} {a : Word} (h : ¬s.InRange a) (v : Word) : s.memWrite a v = none := if_neg h

/-- Settles O53: the in-range write is `Memory.write` at the address: it reads back there and keeps every other cell. -/
theorem memoryPrimitives : Obligations.MemoryPrimitives := by
  unfold Obligations.MemoryPrimitives
  intro s a v
  constructor
  · intro h
    refine ⟨memRead_of_inRange h, _, memWrite_of_inRange h v, ?_, fun c hc => read_write_other s.mem _ hc, rfl⟩
    simp [State.cell]
  · intro h
    exact ⟨memRead_of_not_inRange (Nat.not_lt.2 h), memWrite_of_not_inRange (Nat.not_lt.2 h) v⟩

/-! ## What a stage hands on meets R108 -/

/-- An ALU operation that R108 admits has a result (R97, R108 b). -/
theorem aluResult_hasValue {d : IDEX} (h : IDEX.Ok d) (hop : HasValue d.ctl.aluOp) : HasValue (aluResult d) := by
  obtain ⟨-, hfunct, hadd, -⟩ := h
  obtain ⟨op, hop⟩ := Option.isSome_iff_exists.1 hop
  cases op with
  | add =>
    obtain ⟨hsrc, hoffset, ha⟩ := hadd hop
    obtain ⟨imm, himm⟩ := Option.isSome_iff_exists.1 hoffset
    obtain ⟨a, ha⟩ := Option.isSome_iff_exists.1 ha
    simp [HasValue, aluResult, aluOperandB, alu, hop, hsrc, himm, ha]
  | byFunct =>
    obtain ⟨⟨-, -, hf⟩, hsrc, ha, hb⟩ := hfunct hop
    obtain ⟨a, ha⟩ := Option.isSome_iff_exists.1 ha
    obtain ⟨b, hb⟩ := Option.isSome_iff_exists.1 hb
    rcases hf with hf | hf <;> simp [HasValue, aluResult, aluOperandB, alu, hop, hsrc, ha, hb, hf]

/-- Execute hands on a payload that meets R108 (R98), by the clauses of log 7. -/
theorem exmemOk_executePayload {d : IDEX} (h : IDEX.Ok d) (hf : IDEX.Feeds d) : EXMEM.Ok (executePayload d) := by
  have result := aluResult_hasValue h
  obtain ⟨hexcl, -, -, hdst, hnoop⟩ := h
  obtain ⟨haddr, hstore, hsel, halu, hload⟩ := hf
  refine ⟨hexcl, fun hacc => result ?_, hstore, fun hw => ⟨(hdst hw).2, hsel hw⟩, fun hw hm => result (halu hw hm),
    hload, fun hiw => ?_⟩
  · rw [haddr hacc]
    rfl
  · rw [hnoop hiw]
    rfl

/-- A load that R108 admits and whose register write is not squashed has loaded a byte (R99, R162). -/
theorem accessResult_loadedValue {memSize : Nat} {mem : Memory} {e : EXMEM} (h : EXMEM.Ok e) (hr : e.memRead = true)
    (hw : (accessResult memSize mem e).regWrite = true) : HasValue (accessResult memSize mem e).loadedValue := by
  obtain ⟨-, haddr, -⟩ := h
  obtain ⟨ea, hea⟩ := Option.isSome_iff_exists.1 (haddr (.inl hr))
  have in_range : ea.toNat < memSize := by
    by_contra hge
    simp [accessResult, accessErrors, hr, hea, Nat.le_of_not_lt hge] at hw
  simp [HasValue, accessResult, hr, hea, in_range]

/-- Memory-access hands on a payload that meets R108 (R99). -/
theorem memwbOk_accessResult {e : EXMEM} (h : EXMEM.Ok e) (memSize : Nat) (mem : Memory) :
    MEMWB.Ok (accessResult memSize mem e) := by
  have loaded := accessResult_loadedValue (memSize := memSize) (mem := mem) h
  obtain ⟨-, -, -, hdst, halu, hload, hnoop⟩ := h
  have not_squashed (hw : (accessResult memSize mem e).regWrite = true) : e.regWrite = true :=
    (Bool.and_eq_true_iff.1 hw).1
  refine ⟨fun hw => hdst (not_squashed hw), fun hw hm => loaded (hload (not_squashed hw) hm) hw,
    fun hw hm => halu (not_squashed hw) hm, fun hiw => ?_⟩
  rw [hnoop hiw]
  rfl

/-! ## A load behind a store (R61, R197) -/

/-- A step with a word left answers the synchronous update of R104 when the latches that memory-access and write-back
read meet R108. -/
theorem step_eq_synchronous {s : State} (h : s.pc < s.stream.length) (he : EXMEM.Ok s.exmem.read)
    (hm : MEMWB.Ok s.memwb.read) :
    step s = .next (synchronous s.stream[s.pc] (wordPayload s.ifid.read.iw s) (decodeErrors s.ifid.read.iw) s) := by
  obtain ⟨t, ht⟩ := clockCycle_total he hm (wordPayload s.ifid.read.iw) (missedWord s.ifid.read.iw)
  rw [← step_eq_clockCycle] at ht
  exact ht.trans (congrArg _ (step_next_of_lt h ht))

/-- An in-range store leaves the low byte of its value at its address (R99). -/
theorem read_memoryAfter_store {memSize : Nat} {mem : Memory} {e : EXMEM} {ea v : Word} (hr : e.memRead = false)
    (hw : e.memWrite = true) (hea : e.aluResult = some ea) (hv : e.storeValue = some v) (hin : ea.toNat < memSize) :
    (memoryAfter memSize mem e).read ea.toNat = v.setWidth 8 := by
  simp [memoryAfter, hr, hw, hea, hv, hin]

/-- An in-range load hands on the byte at its address (R99). -/
theorem accessResult_load {memSize : Nat} (mem : Memory) {e : EXMEM} {ea : Word} (hr : e.memRead = true)
    (hea : e.aluResult = some ea) (hin : ea.toNat < memSize) :
    (accessResult memSize mem e).loadedValue = some (mem.read ea.toNat) := by
  simp [accessResult, hr, hea, hin]

/-- Settles O37: the first cycle stores the byte and moves the load into memory-access, and the second reads it there. -/
theorem loadSeesTheStoreBeforeIt : Obligations.LoadSeesTheStoreBeforeIt := by
  unfold Obligations.LoadSeesTheStoreBeforeIt
  rintro s ea v ⟨⟨-, -, hidex, -, hexmem, -, hmemwb⟩, -, hfeeds⟩ hroom hstore hea hv hload hload_ea hin
  have not_load : s.exmem.read.memRead = false := Bool.eq_false_iff.2 fun hr => hexmem.1 ⟨hr, hstore⟩
  have first := step_eq_synchronous (by omega) hexmem hmemwb
  set m := synchronous s.stream[s.pc] (wordPayload s.ifid.read.iw s) (decodeErrors s.ifid.read.iw) s
  have second := step_eq_synchronous (s := m) (Nat.lt_of_succ_le hroom) (exmemOk_executePayload hidex hfeeds)
    (memwbOk_accessResult hexmem s.memSize s.mem)
  have stored : m.mem.read ea.toNat = v.setWidth 8 := read_memoryAfter_store not_load hstore hea hv hin
  exact ⟨_, ⟨m, first, _, second, rfl⟩, (accessResult_load m.mem hload hload_ea hin).trans (congrArg _ stored)⟩

end Sys2Proof.Proofs

/-! The opcode map as one equivalence for each instruction, the mask and match of each row, and the statements of
30_encoding.md settled from them. -/

namespace Sys2Proof.Proofs

open Sys2Proof.Machine Sys2Proof.Safety Sys2Proof.Laws

/-! ## The opcode map, row by row (R75, R76, R78) -/

theorem decode_eq_nop_iff (w : Word) : decode w = .instr .nop ↔ w = Word.noop := by
  constructor
  · exact fun h => (encode_of_decode h).symm
  · rintro rfl
    rfl

/-- A word with a function code that is not zero is not the NOOP word, so the table is consulted for it. -/
theorem ne_noop_of_funct {w : Word} {funct : BitVec 6} (hf : (fieldsOf w).funct = funct) (hne : funct ≠ 0) :
    w ≠ Word.noop := by
  rintro rfl
  exact hne hf.symm

/-- A word with an opcode that is not zero is not the NOOP word, so the table is consulted for it. -/
theorem ne_noop_of_opcode {w : Word} {opcode : BitVec 6} (ho : (fieldsOf w).opcode = opcode) (hne : opcode ≠ 0) :
    w ≠ Word.noop := by
  rintro rfl
  exact hne ho.symm

theorem decode_eq_add_iff (w : Word) :
    decode w = .instr (.add (fieldsOf w).rs (fieldsOf w).rt (fieldsOf w).rd (fieldsOf w).shamt) ↔
      (fieldsOf w).opcode = opcodeR ∧ (fieldsOf w).funct = functAdd := by
  constructor
  · intro h
    obtain ⟨ho, -, -, -, -, hf⟩ := FieldRoundTrip.add (fieldsOf w).rs (fieldsOf w).rt (fieldsOf w).rd (fieldsOf w).shamt
    rw [encode_of_decode h] at ho hf
    exact ⟨ho, hf⟩
  · rintro ⟨ho, hf⟩
    simp [decode, ne_noop_of_funct hf (by decide), ho, hf]

theorem decode_eq_sub_iff (w : Word) :
    decode w = .instr (.sub (fieldsOf w).rs (fieldsOf w).rt (fieldsOf w).rd (fieldsOf w).shamt) ↔
      (fieldsOf w).opcode = opcodeR ∧ (fieldsOf w).funct = functSub := by
  constructor
  · intro h
    obtain ⟨ho, -, -, -, -, hf⟩ := FieldRoundTrip.sub (fieldsOf w).rs (fieldsOf w).rt (fieldsOf w).rd (fieldsOf w).shamt
    rw [encode_of_decode h] at ho hf
    exact ⟨ho, hf⟩
  · rintro ⟨ho, hf⟩
    simp [decode, ne_noop_of_funct hf (by decide), ho, hf]

theorem decode_eq_lb_iff (w : Word) :
    decode w = .instr (.lb (fieldsOf w).rs (fieldsOf w).rt (fieldsOf w).immediate) ↔ (fieldsOf w).opcode = opcodeLb := by
  constructor
  · intro h
    obtain ⟨ho, -⟩ := FieldRoundTrip.lb (fieldsOf w).rs (fieldsOf w).rt (fieldsOf w).immediate
    rwa [encode_of_decode h] at ho
  · intro ho
    simp [decode, ne_noop_of_opcode ho (by decide), ho]

theorem decode_eq_sb_iff (w : Word) :
    decode w = .instr (.sb (fieldsOf w).rs (fieldsOf w).rt (fieldsOf w).immediate) ↔ (fieldsOf w).opcode = opcodeSb := by
  constructor
  · intro h
    obtain ⟨ho, -⟩ := FieldRoundTrip.sb (fieldsOf w).rs (fieldsOf w).rt (fieldsOf w).immediate
    rwa [encode_of_decode h] at ho
  · intro ho
    simp [decode, ne_noop_of_opcode ho (by decide), ho]

theorem decode_eq_decodeMiss_iff (w : Word) :
    decode w = .decodeMiss w ↔
      w ≠ Word.noop ∧ ((fieldsOf w).opcode = opcodeR ∧ (fieldsOf w).funct ≠ functAdd ∧ (fieldsOf w).funct ≠ functSub ∨
        (fieldsOf w).opcode ≠ opcodeR ∧ (fieldsOf w).opcode ≠ opcodeLb ∧ (fieldsOf w).opcode ≠ opcodeSb) := by
  rcases decode_cases w with ⟨hw, hd⟩ | ⟨-, ho, hf, hd⟩ | ⟨-, ho, hf, hd⟩ | ⟨-, ho, hd⟩ | ⟨-, ho, hd⟩ | ⟨hw, hmiss, hd⟩
  · rw [hd]
    simp [hw]
  · simp [hd, ho, hf]
  · simp [hd, ho, hf]
  · simp [hd, ho]
  · simp [hd, ho]
  · exact iff_of_true hd ⟨hw, hmiss⟩

/-! ## The round trips (R82) -/

/-- The decoder reads back every instruction from its word. -/
theorem decode_encode (i : Instr) : decode (encode i) = .instr i := by
  cases i with
  | nop => rfl
  | add rs rt rd shamt =>
    obtain ⟨ho, hrs, hrt, hrd, hshamt, hf⟩ := FieldRoundTrip.add rs rt rd shamt
    rw [(decode_eq_add_iff _).2 ⟨ho, hf⟩, hrs, hrt, hrd, hshamt]
  | sub rs rt rd shamt =>
    obtain ⟨ho, hrs, hrt, hrd, hshamt, hf⟩ := FieldRoundTrip.sub rs rt rd shamt
    rw [(decode_eq_sub_iff _).2 ⟨ho, hf⟩, hrs, hrt, hrd, hshamt]
  | lb rs rt imm =>
    obtain ⟨ho, hrs, hrt, himm⟩ := FieldRoundTrip.lb rs rt imm
    rw [(decode_eq_lb_iff _).2 ho, hrs, hrt, himm]
  | sb rs rt imm =>
    obtain ⟨ho, hrs, hrt, himm⟩ := FieldRoundTrip.sb rs rt imm
    rw [(decode_eq_sb_iff _).2 ho, hrs, hrt, himm]

/-- Settles O4: the fields of the encoded word select the instruction's row and are its operands; no operand is out of
its range, so well-formedness is not used. -/
theorem decodeInvertsEncode : Obligations.DecodeInvertsEncode := by
  unfold Obligations.DecodeInvertsEncode
  exact fun i _ => decode_encode i

/-- Settles O5: the word is rebuilt from the fields that the decoded instruction carries and the codes of its row. -/
theorem encodeInvertsDecode : Obligations.EncodeInvertsDecode := by
  unfold Obligations.EncodeInvertsDecode
  exact fun _ _ => encode_of_decode

/-- The immediate is made of `rd`, `shamt` and `funct` (R71). -/
theorem immediate_eq_rd_shamt_funct (w : Word) :
    (fieldsOf w).immediate.setWidth 32 =
      (fieldsOf w).rd.setWidth 32 <<< 11 ||| (fieldsOf w).shamt.setWidth 32 <<< 6 ||| (fieldsOf w).funct.setWidth 32 := by
  refine BitVec.eq_of_getLsbD_eq fun k hk => ?_
  simp only [fieldsOf, BitVec.getLsbD_or, BitVec.getLsbD_shiftLeft, BitVec.getLsbD_setWidth, BitVec.getLsbD_extractLsb']
  interval_cases k <;> simp

/-- Settles O3: the word of the first part is that of `add`; in the second the low 16 bits are `rd`, `shamt` and
`funct`. -/
theorem fieldsRebuildTheWord : Obligations.FieldsRebuildTheWord := by
  unfold Obligations.FieldsRebuildTheWord
  constructor
  · intro rs rt rd shamt
    obtain ⟨-, fields⟩ := FieldRoundTrip.add rs rt rd shamt
    exact fields
  · intro w
    have rebuilt := iShapeWord_fieldsOf w
    refine ⟨?_, rebuilt⟩
    simpa only [iShapeWord, immediate_eq_rd_shamt_funct, ← BitVec.or_assoc] using rebuilt

/-! ## Mask and match (R75) -/

theorem iShapeWord_inj {opcode opcode' : BitVec 6} {rs rs' rt rt' : RegIdx} {imm imm' : Imm16} :
    iShapeWord opcode rs rt imm = iShapeWord opcode' rs' rt' imm' ↔
      opcode = opcode' ∧ rs = rs' ∧ rt = rt' ∧ imm = imm' := by
  constructor
  · intro h
    obtain ⟨ho, hrs, hrt, himm⟩ := fieldsOf_iShapeWord opcode rs rt imm
    obtain ⟨ho', hrs', hrt', himm'⟩ := fieldsOf_iShapeWord opcode' rs' rt' imm'
    rw [h] at ho hrs hrt himm
    exact ⟨ho.symm.trans ho', hrs.symm.trans hrs', hrt.symm.trans hrt', himm.symm.trans himm'⟩
  · rintro ⟨rfl, rfl, rfl, rfl⟩
    rfl

/-- The mask of `lb` and `sb` keeps the opcode alone. -/
theorem and_opcodeMask (w : Word) : w &&& 0xFC000000 = iShapeWord (fieldsOf w).opcode 0 0 0 := by
  refine BitVec.eq_of_getLsbD_eq fun k hk => ?_
  simp only [iShapeWord, fieldsOf, BitVec.getLsbD_and, BitVec.getLsbD_or, BitVec.getLsbD_shiftLeft,
    BitVec.getLsbD_setWidth, BitVec.getLsbD_extractLsb']
  interval_cases k <;> simp

/-- The mask of `add` and `sub` keeps the opcode and the function code. -/
theorem and_opcodeFunctMask (w : Word) :
    w &&& 0xFC00003F = iShapeWord (fieldsOf w).opcode 0 0 ((fieldsOf w).funct.setWidth 16) := by
  refine BitVec.eq_of_getLsbD_eq fun k hk => ?_
  simp only [iShapeWord, fieldsOf, BitVec.getLsbD_and, BitVec.getLsbD_or, BitVec.getLsbD_shiftLeft,
    BitVec.getLsbD_setWidth, BitVec.getLsbD_extractLsb']
  interval_cases k <;> simp

theorem and_opcodeMask_eq_iff (w : Word) (opcode : BitVec 6) :
    w &&& 0xFC000000 = iShapeWord opcode 0 0 0 ↔ (fieldsOf w).opcode = opcode := by
  rw [and_opcodeMask, iShapeWord_inj]
  simp

theorem and_opcodeFunctMask_eq_iff (w : Word) (opcode funct : BitVec 6) :
    w &&& 0xFC00003F = iShapeWord opcode 0 0 (funct.setWidth 16) ↔
      (fieldsOf w).opcode = opcode ∧ (fieldsOf w).funct = funct := by
  have setWidth_inj : (fieldsOf w).funct.setWidth 16 = funct.setWidth 16 ↔ (fieldsOf w).funct = funct := by
    constructor
    · intro h
      simpa using congrArg (BitVec.setWidth 6) h
    · exact congrArg _
  rw [and_opcodeFunctMask, iShapeWord_inj, setWidth_inj]
  simp

theorem selects_rowNop_iff (w : Word) : rowNop.Selects w ↔ w = Word.noop := by
  have : w &&& rowNop.mask = w := BitVec.and_allOnes
  rw [OpcodeRow.Selects, this]
  rfl

theorem selects_rowAdd_iff (w : Word) :
    rowAdd.Selects w ↔ (fieldsOf w).opcode = opcodeR ∧ (fieldsOf w).funct = functAdd :=
  and_opcodeFunctMask_eq_iff w opcodeR functAdd

theorem selects_rowSub_iff (w : Word) :
    rowSub.Selects w ↔ (fieldsOf w).opcode = opcodeR ∧ (fieldsOf w).funct = functSub :=
  and_opcodeFunctMask_eq_iff w opcodeR functSub

theorem selects_rowLb_iff (w : Word) : rowLb.Selects w ↔ (fieldsOf w).opcode = opcodeLb :=
  and_opcodeMask_eq_iff w opcodeLb

theorem selects_rowSb_iff (w : Word) : rowSb.Selects w ↔ (fieldsOf w).opcode = opcodeSb :=
  and_opcodeMask_eq_iff w opcodeSb

theorem selects_rowNop_iff_decode (w : Word) : rowNop.Selects w ↔ decode w = .instr .nop :=
  (selects_rowNop_iff w).trans (decode_eq_nop_iff w).symm

theorem selects_rowAdd_iff_decode (w : Word) :
    rowAdd.Selects w ↔
      decode w = .instr (.add (fieldsOf w).rs (fieldsOf w).rt (fieldsOf w).rd (fieldsOf w).shamt) :=
  (selects_rowAdd_iff w).trans (decode_eq_add_iff w).symm

theorem selects_rowSub_iff_decode (w : Word) :
    rowSub.Selects w ↔
      decode w = .instr (.sub (fieldsOf w).rs (fieldsOf w).rt (fieldsOf w).rd (fieldsOf w).shamt) :=
  (selects_rowSub_iff w).trans (decode_eq_sub_iff w).symm

theorem selects_rowLb_iff_decode (w : Word) :
    rowLb.Selects w ↔ decode w = .instr (.lb (fieldsOf w).rs (fieldsOf w).rt (fieldsOf w).immediate) :=
  (selects_rowLb_iff w).trans (decode_eq_lb_iff w).symm

theorem selects_rowSb_iff_decode (w : Word) :
    rowSb.Selects w ↔ decode w = .instr (.sb (fieldsOf w).rs (fieldsOf w).rt (fieldsOf w).immediate) :=
  (selects_rowSb_iff w).trans (decode_eq_sb_iff w).symm

/-- Rows that the decoder answers with different instructions select no common word. -/
theorem not_selects_both {p q : OpcodeRow} {w : Word} {i j : Instr} (hp : p.Selects w ↔ decode w = .instr i)
    (hq : q.Selects w ↔ decode w = .instr j) (hij : i ≠ j) : ¬(p.Selects w ∧ q.Selects w) :=
  fun ⟨hpw, hqw⟩ => hij (Decoded.instr.inj ((hp.1 hpw).symm.trans (hq.1 hqw)))

/-- The rows of R75 are disjoint: the decoder answers each with an instruction of its own. -/
theorem opcodeMap_disjoint (w : Word) : opcodeMap.Pairwise fun p q => ¬(p.Selects w ∧ q.Selects w) := by
  have nop := selects_rowNop_iff_decode w
  have add := selects_rowAdd_iff_decode w
  have sub := selects_rowSub_iff_decode w
  have lb := selects_rowLb_iff_decode w
  have sb := selects_rowSb_iff_decode w
  simp only [opcodeMap, List.pairwise_cons, List.forall_mem_cons]
  exact ⟨⟨not_selects_both nop add nofun, not_selects_both nop sub nofun, not_selects_both nop lb nofun,
      not_selects_both nop sb nofun, nofun⟩,
    ⟨not_selects_both add sub nofun, not_selects_both add lb nofun, not_selects_both add sb nofun, nofun⟩,
    ⟨not_selects_both sub lb nofun, not_selects_both sub sb nofun, nofun⟩,
    ⟨not_selects_both lb sb nofun, nofun⟩, nofun, .nil⟩

/-- A word that no row of R75 selects is exactly a decode-table miss. -/
theorem unselected_iff_decodeMiss (w : Word) :
    (∀ row ∈ opcodeMap, ¬row.Selects w) ↔ decode w = .decodeMiss w := by
  simp only [opcodeMap, List.forall_mem_cons, selects_rowNop_iff_decode, selects_rowAdd_iff_decode,
    selects_rowSub_iff_decode, selects_rowLb_iff_decode, selects_rowSb_iff_decode]
  rcases decode_cases w with ⟨-, hd⟩ | ⟨-, -, -, hd⟩ | ⟨-, -, -, hd⟩ | ⟨-, -, hd⟩ | ⟨-, -, hd⟩ | ⟨-, -, hd⟩ <;>
    simp [hd]

/-- Settles O6: each row's mask keeps the fields of its condition, and the decoder tests the same fields. -/
theorem opcodeMapByMaskAndMatch : Obligations.OpcodeMapByMaskAndMatch := by
  unfold Obligations.OpcodeMapByMaskAndMatch
  exact fun w => ⟨selects_rowNop_iff w, selects_rowNop_iff_decode w, selects_rowAdd_iff w, selects_rowAdd_iff_decode w,
    selects_rowSub_iff w, selects_rowSub_iff_decode w, selects_rowLb_iff w, selects_rowLb_iff_decode w,
    selects_rowSb_iff w, selects_rowSb_iff_decode w, opcodeMap_disjoint w, unselected_iff_decodeMiss w⟩

/-! ## Unsupported words and the zero word (R76, R78) -/

/-- Settles O8: the condition is what the tests of the decoder leave over, and a miss carries the word it was given. -/
theorem unsupportedWordsAreNamed : Obligations.UnsupportedWordsAreNamed := by
  unfold Obligations.UnsupportedWordsAreNamed
  exact fun w => ⟨decode_eq_decodeMiss_iff w, fun _ => eq_of_decode_eq_decodeMiss⟩

/-- Settles O7: with opcode 0 the table asks for function code 0x20 or 0x22, and 0 is neither. -/
theorem noopIsTheZeroWordOnly : Obligations.NoopIsTheZeroWordOnly := by
  unfold Obligations.NoopIsTheZeroWordOnly
  refine ⟨decode_eq_nop_iff, decode_encode (.add 0 0 0 0), fun w ho hf hw => ?_⟩
  have funct_unsupported : (fieldsOf w).funct ≠ functAdd ∧ (fieldsOf w).funct ≠ functSub := by
    rw [hf]
    decide
  exact (decode_eq_decodeMiss_iff w).2 ⟨hw, .inl ⟨ho, funct_unsupported⟩⟩

/-! ## Fields as numbers, and the worked encodings (R71, R83) -/

theorem toNat_extractLsb'_eq (w : Word) (start len : Nat) :
    (w.extractLsb' start len).toNat = w.toNat / 2 ^ start % 2 ^ len := by
  rw [BitVec.extractLsb'_toNat, Nat.shiftRight_eq_div_pow]

/-- Settles O2: a field is an extracted slice, and the sign of the immediate is that of the 16-bit value. -/
theorem fieldsAreSlicesOfTheWord : Obligations.FieldsAreSlicesOfTheWord := by
  unfold Obligations.FieldsAreSlicesOfTheWord
  intro w
  have low (len : Nat) : (w.extractLsb' 0 len).toNat = w.toNat % 2 ^ len := by
    rw [toNat_extractLsb'_eq, pow_zero, Nat.div_one]
  refine ⟨toNat_extractLsb'_eq w 26 6, toNat_extractLsb'_eq w 21 5, toNat_extractLsb'_eq w 16 5,
    toNat_extractLsb'_eq w 11 5, toNat_extractLsb'_eq w 6 5, low 6, ?_⟩
  have immediate_toNat : (fieldsOf w).immediate.toNat = w.toNat % 2 ^ 16 := low 16
  rw [BitVec.toInt_eq_toNat_cond, immediate_toNat]
  split <;> split <;> omega

/-- Settles O1: each word is the encoding of its instruction, so the decoder gives the instruction back. -/
theorem workedEncodings : Obligations.WorkedEncodings := by
  unfold Obligations.WorkedEncodings
  have row {w : Word} {i : Instr} {f : Fields} (hw : encode i = w) (hf : fieldsOf w = f) :
      decode w = .instr i ∧ encode i = w ∧ fieldsOf w = f := ⟨hw ▸ decode_encode i, hw, hf⟩
  exact ⟨row (by decide) (by decide), row (by decide) (by decide), row (by decide) (by decide),
    row (by decide) (by decide), row (by decide) (by decide), row (by decide) (by decide)⟩

/-! ## `shamt` takes no part (R77) -/

/-- Execute reads nothing of the instruction word but its function code, and hands the word on (R97, R98). -/
theorem executePayload_of_funct_eq (d : IDEX) {iw : Word} (h : (fieldsOf iw).funct = (fieldsOf d.iw).funct) :
    executePayload { d with iw := iw } = { executePayload d with iw := iw } := by
  have result : aluResult { d with iw := iw } = aluResult d := by
    simp only [aluResult, h]
    rfl
  simp only [executePayload, result]
  rfl

/-- The cycles in which decode holds two R-shape words with the same operands and function code: both answer, and with a
word left to fetch they differ in the word held by IDEX alone, as does what execute then computes. -/
theorem clockCycle_rShape_iw_only {s : State} (hs : s.LatchesOk) (ctl : Control) (rs rt rd : RegIdx) {iw iw' : Word}
    (hf : (fieldsOf iw').funct = (fieldsOf iw).funct) :
    ∃ t t', clockCycle (rShapePayload iw ctl rs rt rd) none s = .next t ∧
      clockCycle (rShapePayload iw' ctl rs rt rd) none s = .next t' ∧
      (s.pc < s.stream.length →
        t' = { t with idex := ⟨{ t.idex.write with iw := iw' }, { t.idex.read with iw := iw' }⟩ } ∧
        executePayload t'.idex.read = { executePayload t.idex.read with iw := iw' }) := by
  obtain ⟨-, -, -, hexmem, -, hmemwb⟩ := hs
  obtain ⟨t, ht⟩ := clockCycle_total hexmem hmemwb (rShapePayload iw ctl rs rt rd) none
  obtain ⟨t', ht'⟩ := clockCycle_total hexmem hmemwb (rShapePayload iw' ctl rs rt rd) none
  refine ⟨t, t', ht, ht', fun h => ?_⟩
  obtain rfl := clockCycle_next h ht
  obtain rfl := clockCycle_next h ht'
  exact ⟨rfl, executePayload_of_funct_eq (rShapePayload iw ctl rs rt rd (fetch s)) hf⟩

theorem funct_encode_add (rs rt rd : RegIdx) (shamt : BitVec 5) :
    (fieldsOf (encode (.add rs rt rd shamt))).funct = functAdd := by
  rw [encode, fieldsOf_rShapeWord]

theorem funct_encode_sub (rs rt rd : RegIdx) (shamt : BitVec 5) :
    (fieldsOf (encode (.sub rs rt rd shamt))).funct = functSub := by
  rw [encode, fieldsOf_rShapeWord]

/-- Settles O9: the two words have the same operands and function code, and nothing else of the word is used. -/
theorem shamtTakesNoPart : Obligations.ShamtTakesNoPart := by
  unfold Obligations.ShamtTakesNoPart
  intro s rs rt rd h h' hs
  constructor
  · exact clockCycle_rShape_iw_only hs Control.arith rs rt rd
      ((funct_encode_add rs rt rd h').trans (funct_encode_add rs rt rd h).symm)
  · exact clockCycle_rShape_iw_only hs Control.arith rs rt rd
      ((funct_encode_sub rs rt rd h').trans (funct_encode_sub rs rt rd h).symm)

/-! ## The word placed for the next step (R75, R105) -/

theorem tableWord_toNat (w : Word) : tableWord 32 w.toNat = w := by
  rw [tableWord, Nat.mod_eq_of_lt w.isLt, BitVec.ofNat_toNat, BitVec.setWidth_eq]

/-- A step is `exec` of the instruction that the decode stage holds. -/
theorem step_eq_exec {s : State} {i : Instr} (h : decode s.ifid.read.iw = .instr i) : step s = exec i s := by
  rw [step, cycleDriver, h]

/-- Placing a word leaves a word to fetch: an ended stream is filled up past the fetch index. -/
theorem withWordInDecode_room (s : State) (w : Word) :
    (s.withWordInDecode w).pc < (s.withWordInDecode w).stream.length := by
  simp only [State.withWordInDecode, List.length_append, List.length_replicate]
  omega

/-- Settles O19: the placed number is the instruction's word, which decode holds and reads back. -/
theorem placedWordRunsNext : Obligations.PlacedWordRunsNext := by
  unfold Obligations.PlacedWordRunsNext
  intro s i
  have decoded : decode (tableWord 32 (encode i).toNat) = .instr i := by rw [tableWord_toNat, decode_encode]
  refine ⟨withWordInDecode_room s _, step_eq_exec decoded, ?_⟩
  simp [decodeTableWord, decoded]

end Sys2Proof.Proofs

/-! A cycle as a function of the state, the invariant it keeps, the program-order view it advances, and the statements of
40_pipeline.md settled from them. -/

namespace Sys2Proof.Proofs

open Sys2Proof.Machine Sys2Proof.Safety Sys2Proof.Laws

/-! ## One cycle as a function of the state (R101, R104) -/

/-- The state after the cycle that starts in `s`, as the synchronous update of R104. -/
def afterCycle (s : State) : State :=
  synchronous (s.stream.getD s.pc Word.noop) (wordPayload s.ifid.read.iw s) (decodeErrors s.ifid.read.iw) s

theorem afterCycle_eq_synchronous {s : State} (h : s.pc < s.stream.length) :
    afterCycle s =
      synchronous s.stream[s.pc] (wordPayload s.ifid.read.iw s) (decodeErrors s.ifid.read.iw) s := by
  rw [afterCycle, List.getD_eq_getElem _ _ h]

/-- A step with a word left answers the state after the cycle, when the latches meet R108. -/
theorem step_eq_afterCycle {s : State} (h : s.pc < s.stream.length) (hs : s.LatchesOk) :
    step s = .next (afterCycle s) := by
  obtain ⟨-, -, -, hexmem, -, hmemwb⟩ := hs
  rw [afterCycle_eq_synchronous h]
  exact step_eq_synchronous h hexmem hmemwb

@[simp] theorem afterCycle_pc (s : State) : (afterCycle s).pc = s.pc + 1 := rfl
@[simp] theorem afterCycle_stream (s : State) : (afterCycle s).stream = s.stream := rfl
@[simp] theorem afterCycle_memSize (s : State) : (afterCycle s).memSize = s.memSize := rfl
@[simp] theorem afterCycle_cycle (s : State) : (afterCycle s).cycle = s.cycle + 1 := rfl

/-- The word that the next cycle decodes is the one that this cycle fetches (R105). -/
theorem afterCycle_ifid_iw {s : State} (h : s.pc < s.stream.length) :
    (afterCycle s).ifid.read.iw = s.stream[s.pc] := by
  rw [afterCycle_eq_synchronous h]
  rfl

@[simp] theorem iterate_afterCycle_pc (k : Nat) (s : State) : (afterCycle^[k] s).pc = s.pc + k := by
  induction k generalizing s with
  | zero => rfl
  | succ k ih => rw [Function.iterate_succ_apply, ih, afterCycle_pc, Nat.add_assoc, Nat.add_comm 1]

@[simp] theorem iterate_afterCycle_cycle (k : Nat) (s : State) : (afterCycle^[k] s).cycle = s.cycle + k := by
  induction k generalizing s with
  | zero => rfl
  | succ k ih => rw [Function.iterate_succ_apply, ih, afterCycle_cycle, Nat.add_assoc, Nat.add_comm 1]

@[simp] theorem iterate_afterCycle_stream (k : Nat) (s : State) : (afterCycle^[k] s).stream = s.stream := by
  induction k generalizing s with
  | zero => rfl
  | succ k ih => rw [Function.iterate_succ_apply, ih, afterCycle_stream]

/-! ## The invariant (R108) -/

theorem encode_ne_noop {i : Instr} (hi : i ≠ .nop) : encode i ≠ Word.noop := by
  intro h
  have decoded := decode_encode i
  rw [h, (decode_eq_nop_iff _).2 rfl] at decoded
  exact hi (Decoded.instr.inj decoded).symm

theorem isArithWord_encode_add (rs rt rd : RegIdx) (shamt : BitVec 5) : IsArithWord (encode (.add rs rt rd shamt)) := by
  obtain ⟨ho, -, -, -, -, hf⟩ := FieldRoundTrip.add rs rt rd shamt
  exact ⟨encode_ne_noop nofun, ho, .inl hf⟩

theorem isArithWord_encode_sub (rs rt rd : RegIdx) (shamt : BitVec 5) : IsArithWord (encode (.sub rs rt rd shamt)) := by
  obtain ⟨ho, -, -, -, -, hf⟩ := FieldRoundTrip.sub rs rt rd shamt
  exact ⟨encode_ne_noop nofun, ho, .inr hf⟩

/-- The row of `add` and `sub` with the R-shape snapshot meets R108 for an arithmetic word. -/
theorem idexOk_rShapePayload {iw : Word} (h : IsArithWord iw) (rs rt rd : RegIdx) (s : State) :
    IDEX.Ok (rShapePayload iw Control.arith rs rt rd s) :=
  ⟨(nomatch ·.1), fun _ => ⟨h, rfl, rfl, rfl⟩, nofun, fun _ => ⟨rfl, rfl⟩, fun hiw => absurd hiw h.1⟩

/-- What decode writes meets R108, by the rows of R90 and the snapshots of R93. -/
theorem idexOk_instrPayload (i : Instr) (s : State) : IDEX.Ok (instrPayload i s) := by
  cases i with
  | nop =>
    show IDEX.Ok IDEX.noop
    decide
  | add rs rt rd shamt => exact idexOk_rShapePayload (isArithWord_encode_add rs rt rd shamt) rs rt rd s
  | sub rs rt rd shamt => exact idexOk_rShapePayload (isArithWord_encode_sub rs rt rd shamt) rs rt rd s
  | lb rs rt imm =>
    exact ⟨(nomatch ·.2), nofun, fun _ => ⟨rfl, rfl, rfl⟩, fun _ => ⟨rfl, rfl⟩,
      fun hiw => absurd hiw (encode_ne_noop (i := .lb rs rt imm) nofun)⟩
  | sb rs rt imm =>
    exact ⟨(nomatch ·.1), nofun, fun _ => ⟨rfl, rfl, rfl⟩, nofun,
      fun hiw => absurd hiw (encode_ne_noop (i := .sb rs rt imm) nofun)⟩

theorem idexOk_wordPayload (w : Word) (s : State) : IDEX.Ok (wordPayload w s) := by
  unfold wordPayload
  cases hd : decode w with
  | instr i => exact idexOk_instrPayload i s
  | decodeMiss v =>
    obtain rfl := eq_of_decode_eq_decodeMiss hd
    obtain ⟨hne, -⟩ := (decode_eq_decodeMiss_iff v).1 hd
    exact ⟨(nomatch ·.1), nofun, nofun, nofun, fun hiw => absurd hiw hne⟩

/-- The clauses of log 7 are read off the rows of R90. -/
theorem feeds_wordPayload (w : Word) (s : State) : IDEX.Feeds (wordPayload w s) := by
  unfold wordPayload
  cases decode w with
  | instr i =>
    cases i <;>
      simp [IDEX.Feeds, HasValue, instrPayload, noopPayload, rShapePayload, iShapePayload, Control.arith, Control.load,
        Control.store]
  | decodeMiss v => simp [IDEX.Feeds, bubblePayload]

/-- Memory-access changes memory by one in-range write, or not at all (R99). -/
theorem memoryAfter_cases (memSize : Nat) (mem : Memory) (e : EXMEM) :
    memoryAfter memSize mem e = mem ∨
    ∃ (a : Nat) (b : Byte), a < memSize ∧ memoryAfter memSize mem e = mem.write a b := by
  unfold memoryAfter
  split
  · split
    next hin => exact .inr ⟨_, _, hin, rfl⟩
    next => exact .inl rfl
  · exact .inl rfl

theorem memoryAfter_wf {mem : Memory} (h : mem.wf) (memSize : Nat) (e : EXMEM) :
    (memoryAfter memSize mem e).wf := by
  rcases memoryAfter_cases memSize mem e with hm | ⟨a, b, -, hm⟩ <;> rw [hm]
  · exact h
  · exact write_wf h a b

theorem memoryAfter_below {memSize : Nat} {mem : Memory} (h : ∀ p ∈ mem, p.1 < memSize) (e : EXMEM) :
    ∀ p ∈ memoryAfter memSize mem e, p.1 < memSize := by
  rcases memoryAfter_cases memSize mem e with hm | ⟨a, b, ha, hm⟩ <;> rw [hm]
  · exact h
  · intro p hp
    rcases mem_of_mem_write hp with rfl | hp
    · exact ha
    · exact h p hp

/-- A cycle keeps the invariant. -/
theorem inv_afterCycle {s : State} (h : s.pc < s.stream.length) (hs : s.Inv) : (afterCycle s).Inv := by
  obtain ⟨⟨⟨hsize, -, hwf, hbelow⟩, -, hidex, -, hexmem, -, -⟩, -, hfeeds⟩ := hs
  have stores : (afterCycle s).StoresOk :=
    ⟨hsize, h, memoryAfter_wf hwf s.memSize s.exmem.read, memoryAfter_below hbelow s.exmem.read⟩
  have idex := idexOk_wordPayload s.ifid.read.iw s
  have feeds := feeds_wordPayload s.ifid.read.iw s
  have exmem := exmemOk_executePayload hidex hfeeds
  have memwb := memwbOk_accessResult hexmem s.memSize s.mem
  exact ⟨⟨stores, idex, idex, exmem, exmem, memwb, memwb⟩, feeds, feeds⟩

/-- Settles O40: a cycle keeps the invariant, and the stutter after the last word changes nothing. -/
theorem stepKeepsInv : Obligations.StepKeepsInv := by
  unfold Obligations.StepKeepsInv
  intro s t hinv hs
  rcases step_cases hs with ⟨h, rfl⟩ | ⟨-, rfl⟩
  · rw [← afterCycle_eq_synchronous h]
    exact inv_afterCycle h hinv
  · exact hinv

/-- A store without an address in IDEX: `ALUOp` holds `DC`, which R108 does not exclude (log 7). -/
def addresslessStore : IDEX :=
  { IDEX.noop with
    iw := encode (.sb 8 2 0), ctl := { Control.store with aluOp := DC }, readReg2Value := some 0x102 }

/-- Settles O41: execute hands the store on to EXMEM, where R108 asks for its address. -/
theorem listedInvariantsAreNotInductive : Obligations.ListedInvariantsAreNotInductive := by
  unfold Obligations.ListedInvariantsAreNotInductive
  let s : State := { State.resetState 1024 [Word.noop] with idex := ⟨IDEX.noop, addresslessStore⟩ }
  have admitted : s.Admitted := (admittedCheck_iff s).1 (by decide)
  have no_address : ¬EXMEM.Ok (executePayload addresslessStore) := by decide
  exact ⟨s, afterCycle s, admitted, Nat.one_pos, step_eq_afterCycle Nat.one_pos admitted.2,
    fun ⟨_, _, hexmem, _⟩ => no_address hexmem⟩

/-! ## When a step answers, and why it is refused (R103, R109) -/

/-- Settles O46: the cycle driver runs no cycle when no word is left. -/
theorem endedRunStays : Obligations.EndedRunStays := by
  unfold Obligations.EndedRunStays
  intro s h
  rw [step_eq_clockCycle]
  exact clockCycle_ended h _ _

/-- Settles O43: with a word left the cycle answers, and after the last word the step stutters. -/
theorem stepAlwaysAnswers : Obligations.StepAlwaysAnswers := by
  unfold Obligations.StepAlwaysAnswers
  intro s hs
  rcases Nat.lt_or_ge s.pc s.stream.length with h | h
  · exact ⟨afterCycle s, step_eq_afterCycle h hs⟩
  · exact ⟨s, endedRunStays s h⟩

/-- A sequence is refused exactly when its first part is, or its second part after the first has answered. -/
theorem andThen_eq_refused {o : Host.Outcome State Fault Refusal} {f : State → Host.Outcome State Fault Refusal}
    {r : Refusal} : andThen o f = .refused r ↔ o = .refused r ∨ ∃ m, o = .next m ∧ f m = .refused r := by
  cases o <;> simp [andThen]

/-- A store is refused only for a missing value, in range. -/
theorem storeByte_refused {ea : Word} {s : State} {r : Refusal} (h : storeByte ea s = .refused r) :
    ∃ u, r = .dontCareRead u := by
  simp only [storeByte] at h
  split at h
  next =>
    split at h
    next => split at h <;> cases h
    next =>
      cases h
      exact ⟨_, rfl⟩
  next => cases h

theorem memoryAccess_refused {s : State} {r : Refusal} (h : memoryAccess s = .refused r) :
    ∃ u, r = .dontCareRead u := by
  simp only [memoryAccess] at h
  split at h
  next =>
    split at h <;> cases h
    exact ⟨_, rfl⟩
  next =>
    split at h
    next =>
      split at h
      next => exact storeByte_refused h
      next =>
        cases h
        exact ⟨_, rfl⟩
    next => cases h

theorem writeBack_refused {s : State} {r : Refusal} (h : writeBack s = .refused r) : ∃ u, r = .dontCareRead u := by
  simp only [writeBack] at h
  split at h
  next =>
    split at h
    next =>
      split at h <;> cases h
      exact ⟨_, rfl⟩
    next =>
      split at h <;> cases h
      exact ⟨_, rfl⟩
    next =>
      cases h
      exact ⟨_, rfl⟩
    next =>
      cases h
      exact ⟨_, rfl⟩
  next => cases h

/-- Settles O44: of the five stages and the latch copy only memory-access and write-back can refuse. -/
theorem onlyDontCareIsRefused : Obligations.OnlyDontCareIsRefused := by
  unfold Obligations.OnlyDontCareIsRefused
  intro s r hs
  rw [step_eq_clockCycle, clockCycle] at hs
  split at hs
  next =>
    simp only [runStages, andThen_eq_refused, reduceCtorEq, and_false, exists_false, or_false] at hs
    rcases hs with hs | ⟨m, -, hs⟩
    · exact memoryAccess_refused hs
    · exact writeBack_refused hs
  next => cases hs

/-! ## Runs (R103, R105) -/

/-- Two runs in a row are one run. -/
theorem steps_add {j k : Nat} {s m t : State} (hj : Steps j s m) (hk : Steps k m t) : Steps (j + k) s t := by
  induction j generalizing s with
  | zero =>
    obtain rfl : s = m := hj
    rwa [Nat.zero_add]
  | succ j ih =>
    obtain ⟨u, hu, hj⟩ := hj
    rw [Nat.succ_add]
    exact ⟨u, hu, ih hj⟩

/-- An ended run stays where it is, for any number of steps. -/
theorem steps_of_ended {s : State} (h : s.Ended) (k : Nat) : Steps k s s := by
  induction k with
  | zero => rfl
  | succ k ih => exact ⟨s, endedRunStays s h, ih⟩

/-- While words are left, steps are cycles. -/
theorem steps_iterate_afterCycle {k : Nat} {s : State} (hs : s.Inv) (h : s.pc + k ≤ s.stream.length) :
    Steps k s (afterCycle^[k] s) := by
  induction k generalizing s with
  | zero => rfl
  | succ k ih =>
    have room : s.pc < s.stream.length := by omega
    refine ⟨afterCycle s, step_eq_afterCycle room hs.1.2, ih (inv_afterCycle room hs) ?_⟩
    rw [afterCycle_pc, afterCycle_stream]
    omega

/-- Settles O45: up to `N` the steps are cycles, each counting one; then the fetch index is `N` and the run stays. -/
theorem runIsExactlyNCycles : Obligations.RunIsExactlyNCycles := by
  unfold Obligations.RunIsExactlyNCycles
  intro s hs hpc
  have steps (k : Nat) (hk : k ≤ s.stream.length) : Steps k s (afterCycle^[k] s) :=
    steps_iterate_afterCycle hs (by omega)
  constructor
  · intro k hk
    exact ⟨_, steps k hk, by simp [hpc], by simp⟩
  · intro k hk
    obtain ⟨j, rfl⟩ := Nat.exists_eq_add_of_le hk
    have ended : (afterCycle^[s.stream.length] s).Ended := by simp [State.Ended, hpc]
    exact ⟨_, steps _ le_rfl, steps_add (steps _ le_rfl) (steps_of_ended ended j)⟩

/-- Settles O28: fetch puts the word into IFID, and decode, execute and memory-access hand it on. -/
theorem fourCyclesOfLatency : Obligations.FourCyclesOfLatency := by
  unfold Obligations.FourCyclesOfLatency
  intro s h hs hroom
  have steps (k : Nat) (hk : k ≤ 4) : Steps k s (afterCycle^[k] s) := steps_iterate_afterCycle hs (by omega)
  have fetched : (afterCycle s).ifid.read.iw = s.stream[s.pc] := afterCycle_ifid_iw h
  have decoded : (afterCycle (afterCycle s)).idex.read.iw = s.stream[s.pc] := (wordPayload_iw _ _).trans fetched
  exact ⟨_, _, _, _, steps 1 (by decide), steps 2 (by decide), steps 3 (by decide), steps 4 (by decide),
    fetched, decoded, decoded, decoded⟩

/-! ## The program-order view (R107) -/

theorem reg_eq_regOf (s : State) (r : RegIdx) : s.reg r = regOf s.regs r := by
  simp [State.reg, regOf, Vector.get_eq_getElem]

/-- What execute hands on for `add` (R97, R98, R130). -/
theorem executePayload_add (rs rt rd : RegIdx) (shamt : BitVec 5) (s : State) :
    executePayload (instrPayload (.add rs rt rd shamt) s) =
      { iw := encode (.add rs rt rd shamt), memRead := false, memWrite := false, memToReg := some false,
        regWrite := true, aluResult := some (s.reg rs + s.reg rt), storeValue := some (s.reg rt),
        writeReg := some rd } := by
  simp [executePayload, instrPayload, rShapePayload, Control.arith, aluResult, aluOperandB, alu, selectedWriteReg,
    funct_encode_add]

/-- What execute hands on for `sub` (R97, R98, R131). -/
theorem executePayload_sub (rs rt rd : RegIdx) (shamt : BitVec 5) (s : State) :
    executePayload (instrPayload (.sub rs rt rd shamt) s) =
      { iw := encode (.sub rs rt rd shamt), memRead := false, memWrite := false, memToReg := some false,
        regWrite := true, aluResult := some (s.reg rs - s.reg rt), storeValue := some (s.reg rt),
        writeReg := some rd } := by
  simp [executePayload, instrPayload, rShapePayload, Control.arith, aluResult, aluOperandB, alu, selectedWriteReg,
    funct_encode_sub]

/-- What execute hands on for `lb` (R97, R98, R140). -/
theorem executePayload_lb (rs rt : RegIdx) (imm : Imm16) (s : State) :
    executePayload (instrPayload (.lb rs rt imm) s) =
      { iw := encode (.lb rs rt imm), memRead := true, memWrite := false, memToReg := some true, regWrite := true,
        aluResult := some (effectiveAddress (s.reg rs) imm), storeValue := some (s.reg rt), writeReg := some rt } :=
  rfl

/-- What execute hands on for `sb` (R97, R98, R141). -/
theorem executePayload_sb (rs rt : RegIdx) (imm : Imm16) (s : State) :
    executePayload (instrPayload (.sb rs rt imm) s) =
      { iw := encode (.sb rs rt imm), memRead := false, memWrite := true, memToReg := DC, regWrite := false,
        aluResult := some (effectiveAddress (s.reg rs) imm), storeValue := some (s.reg rt), writeReg := DC } :=
  rfl

theorem effectiveAddress_reg (s : State) (rs : RegIdx) (imm : Imm16) :
    effectiveAddress (s.reg rs) imm = addressOf s.regs rs imm := by
  rw [reg_eq_regOf]
  rfl

/-- Execute and memory-access of an instruction compute its register write of R107 (R130, R131, R140). -/
theorem registerWrite_instrPayload (memSize : Nat) (mem : Memory) (i : Instr) (s : State) :
    registerWrite (accessResult memSize mem (executePayload (instrPayload i s))) = writeOf memSize i ⟨s.regs, mem⟩ := by
  cases i with
  | nop => rfl
  | add rs rt rd shamt =>
    rw [executePayload_add, reg_eq_regOf, reg_eq_regOf]
    rfl
  | sub rs rt rd shamt =>
    rw [executePayload_sub, reg_eq_regOf, reg_eq_regOf]
    rfl
  | lb rs rt imm =>
    rw [executePayload_lb, effectiveAddress_reg]
    by_cases hin : (addressOf s.regs rs imm).toNat < memSize
    · simp [registerWrite, accessResult, accessErrors, writeOf, hin]
    · simp [registerWrite, accessResult, accessErrors, writeOf, hin, Nat.le_of_not_lt hin]
  | sb rs rt imm => rfl

/-- Execute and memory-access of an instruction perform its store of R107 (R141). -/
theorem memoryAfter_instrPayload (memSize : Nat) (mem : Memory) (i : Instr) (s : State) :
    memoryAfter memSize mem (executePayload (instrPayload i s)) = storeOf memSize i ⟨s.regs, mem⟩ := by
  cases i with
  | nop | lb => rfl
  | add => rw [executePayload_add]; rfl
  | sub => rw [executePayload_sub]; rfl
  | sb rs rt imm =>
    rw [executePayload_sb, effectiveAddress_reg, reg_eq_regOf]
    rfl

/-- Execute of what decode writes for a word hands on what it does for the instruction the word runs as, but for the
word itself (R153). -/
theorem executePayload_wordPayload (w : Word) (s : State) :
    executePayload (wordPayload w s) = { executePayload (instrPayload (runsAs w) s) with iw := w } := by
  have word := wordPayload_iw w s
  unfold wordPayload runsAs at *
  cases hd : decode w with
  | instr i =>
    rw [hd] at word
    exact congrArg (fun iw => { executePayload (instrPayload i s) with iw := iw }) word
  | decodeMiss v =>
    rw [hd] at word
    exact congrArg (fun iw => { EXMEM.noop with iw := iw }) word

theorem registerWrite_wordPayload (memSize : Nat) (mem : Memory) (w : Word) (s : State) :
    registerWrite (accessResult memSize mem (executePayload (wordPayload w s))) =
      writeOf memSize (runsAs w) ⟨s.regs, mem⟩ := by
  rw [executePayload_wordPayload]
  exact registerWrite_instrPayload memSize mem (runsAs w) s

theorem memoryAfter_wordPayload (memSize : Nat) (mem : Memory) (w : Word) (s : State) :
    memoryAfter memSize mem (executePayload (wordPayload w s)) = storeOf memSize (runsAs w) ⟨s.regs, mem⟩ := by
  rw [executePayload_wordPayload]
  exact memoryAfter_instrPayload memSize mem (runsAs w) s

/-- One cycle is one word of the program-order machine: write-back commits the oldest queued write, the other two move
up, and the word in decode queues its own behind them. -/
theorem queuedView_afterCycle (s : State) :
    queuedView (afterCycle s) = queuedStep s.memSize (queuedView s) (runsAs s.ifid.read.iw) := by
  have store := memoryAfter_wordPayload s.memSize (queuedView s).arch.mem s.ifid.read.iw s
  have write := registerWrite_wordPayload s.memSize (queuedView s).arch.mem s.ifid.read.iw s
  simp only [queuedView, queuedStep, Queued.mk.injEq, Arch.mk.injEq]
  exact ⟨⟨rfl, store⟩, rfl, rfl, write⟩

/-- Settles O56: the step is the cycle, and the cycle is the program-order step. -/
theorem cycleIsOneProgramOrderStep : Obligations.CycleIsOneProgramOrderStep := by
  unfold Obligations.CycleIsOneProgramOrderStep
  intro s hs h
  exact ⟨afterCycle s, step_eq_afterCycle h hs.1.2, queuedView_afterCycle s⟩

/-- A run performs, behind the word it found in decode, the words that it fetched but the last. -/
theorem queuedView_iterate_afterCycle {k : Nat} {s : State} (h : s.pc + k ≤ s.stream.length) :
    queuedView (afterCycle^[k] (afterCycle s)) =
      (((s.stream.drop s.pc).take k).map runsAs).foldl (queuedStep s.memSize) (queuedView (afterCycle s)) := by
  induction k generalizing s with
  | zero => simp
  | succ k ih =>
    have room : s.pc < s.stream.length := by omega
    have room' : (afterCycle s).pc + k ≤ (afterCycle s).stream.length := by
      rw [afterCycle_pc, afterCycle_stream]
      omega
    rw [Function.iterate_succ_apply, ih room', queuedView_afterCycle (afterCycle s), afterCycle_ifid_iw room,
      List.drop_eq_getElem_cons room]
    rfl

/-- From empty latches the program-order view of a run has performed the words that it fetched but the last. -/
theorem queuedView_iterate_of_allNoop {k : Nat} {s : State} (hs : AllNoop s) (hpc : s.pc = 0)
    (h : k ≤ s.stream.length) :
    queuedView (afterCycle^[k] s) =
      ((s.stream.map runsAs).take (k - 1)).foldl (queuedStep s.memSize) ⟨⟨s.regs, s.mem⟩, none, none, none⟩ := by
  obtain ⟨hifid, hidex, hexmem, hmemwb⟩ := hs
  have start : queuedView s = ⟨⟨s.regs, s.mem⟩, none, none, none⟩ := by
    rw [queuedView, hidex, hexmem, hmemwb]
    rfl
  cases k with
  | zero => exact start
  | succ k =>
    have first : queuedView (afterCycle s) = ⟨⟨s.regs, s.mem⟩, none, none, none⟩ := by
      rw [queuedView_afterCycle, start, hifid]
      rfl
    rw [Function.iterate_succ_apply, queuedView_iterate_afterCycle (by omega), first, hpc, List.drop_zero,
      List.map_take]
    rfl

/-- The memory two cycles on is the one that the program-order view shows. -/
theorem afterCycle_afterCycle_mem (s : State) : (afterCycle (afterCycle s)).mem = (queuedView s).arch.mem := rfl

/-- Settles O58: the registers are those of the view after `N` cycles, and the memory, which the view shows two cycles
ahead, that of the view after `N - 2`. -/
theorem runMatchesProgramOrder : Obligations.RunMatchesProgramOrder := by
  unfold Obligations.RunMatchesProgramOrder
  intro s hs hnoop hpc
  have view {k : Nat} := queuedView_iterate_of_allNoop (k := k) hnoop hpc
  refine ⟨_, steps_iterate_afterCycle hs (by omega), congrArg (·.arch.regs) (view le_rfl), ?_⟩
  obtain ⟨-, -, hexmem, -⟩ := hnoop
  rcases hn : s.stream.length with _ | _ | k
  · rfl
  · show memoryAfter s.memSize s.mem s.exmem.read = s.mem
    rw [hexmem]
    rfl
  · rw [Function.iterate_succ_apply', Function.iterate_succ_apply', afterCycle_afterCycle_mem, view (by omega)]
    rfl

end Sys2Proof.Proofs

/-! The control table row by row, what a step does stage by stage, and the statements of 40_pipeline.md settled from
them. -/

namespace Sys2Proof.Proofs

open Sys2Proof.Machine Sys2Proof.Safety Sys2Proof.Laws

/-! ## The control-signal table (R90, R91) -/

/-- The row of R90 for an instruction. -/
def instrControl : Instr → Control
  | .nop => Control.noop
  | .add _ _ _ _ => Control.arith
  | .sub _ _ _ _ => Control.arith
  | .lb _ _ _ => Control.load
  | .sb _ _ _ => Control.store

/-- The control vector of a supported word is the row of the instruction it decodes to. -/
theorem controlSignals_of_decode {w : Word} {i : Instr} (h : decode w = .instr i) :
    controlSignals w = some (instrControl i) := by
  rcases decode_cases w with
    ⟨hw, hd⟩ | ⟨hw, ho, hf, hd⟩ | ⟨hw, ho, hf, hd⟩ | ⟨hw, ho, hd⟩ | ⟨hw, ho, hd⟩ | ⟨-, -, hd⟩ <;>
    rw [hd] at h <;> cases h
  · simp [controlSignals, hw, instrControl]
  · simp [controlSignals, controlTable, hw, ho, hf, instrControl]
  · simp [controlSignals, controlTable, hw, ho, hf, instrControl]
  · simp [controlSignals, controlTable, hw, ho, instrControl]
  · simp [controlSignals, controlTable, hw, ho, instrControl]

theorem controlSignals_encode (i : Instr) : controlSignals (encode i) = some (instrControl i) :=
  controlSignals_of_decode (decode_encode i)

/-- Exactly the unsupported words have no control vector. -/
theorem controlSignals_eq_none_iff (w : Word) : controlSignals w = none ↔ decode w = .decodeMiss w := by
  constructor
  · intro h
    cases hd : decode w with
    | instr i => simp [controlSignals_of_decode hd] at h
    | decodeMiss v => rw [eq_of_decode_eq_decodeMiss hd]
  · intro h
    obtain ⟨hw, ⟨ho, hadd, hsub⟩ | ⟨hr, hlb, hsb⟩⟩ := (decode_eq_decodeMiss_iff w).1 h
    · simp [controlSignals, controlTable, hw, ho, hadd, hsub]
    · simp [controlSignals, controlTable, hw, hr, hlb, hsb]

/-- Settles O10: the vector of an instruction's word is its row. -/
theorem controlTableRows : Obligations.ControlTableRows := by
  unfold Obligations.ControlTableRows
  exact ⟨fun rs rt rd shamt => controlSignals_encode (.add rs rt rd shamt),
    fun rs rt rd shamt => controlSignals_encode (.sub rs rt rd shamt),
    fun rs rt imm => controlSignals_encode (.lb rs rt imm), fun rs rt imm => controlSignals_encode (.sb rs rt imm),
    controlSignals_encode .nop, controlSignals_eq_none_iff⟩

/-- Settles O11: the facts are read off the rows of the five instructions. -/
theorem controlTableFacts : Obligations.ControlTableFacts := by
  unfold Obligations.ControlTableFacts
  intro w i c hd hc
  obtain rfl : instrControl i = c := Option.some.inj ((controlSignals_of_decode hd).symm.trans hc)
  cases i with
  | nop => simp [instrControl]
  | add => simp [instrControl, Control.arith]
  | sub => simp [instrControl, Control.arith]
  | lb => simp [instrControl, Control.load]
  | sb => simp [instrControl, Control.store]

/-! ## The cycle in which a word is decoded (R93 to R95, R104) -/

theorem wordPayload_encode (i : Instr) : wordPayload (encode i) = instrPayload i := by
  rw [wordPayload, decode_encode]

/-- The cycle whose decode stage holds an instruction is the synchronous update of R104 with what decode writes for it. -/
theorem exec_eq_synchronous {s : State} (h : s.pc < s.stream.length) (hs : s.LatchesOk) (i : Instr) :
    exec i s = .next (synchronous s.stream[s.pc] (instrPayload i s) [] s) := by
  obtain ⟨-, -, -, hexmem, -, hmemwb⟩ := hs
  obtain ⟨t, ht⟩ := clockCycle_total hexmem hmemwb (instrPayload i) none
  have regs_fetch : (fetch s).regs = s.regs := by simp [fetch_of_lt h]
  have payload_fetch : instrPayload i (fetch s) = instrPayload i s := by
    simpa only [wordPayload_encode] using wordPayload_congr (encode i) regs_fetch
  rw [exec_eq_clockCycle, ht, clockCycle_next h ht, payload_fetch]
  rfl

/-- Settles O12: `nop` writes the NOOP payload. -/
theorem nopDecodeCycle : Obligations.NopDecodeCycle := by
  unfold Obligations.NopDecodeCycle
  exact fun s h hs => exec_eq_synchronous h hs .nop

/-- Settles O13: `add` writes its row and the R-shape snapshot. -/
theorem addDecodeCycle : Obligations.AddDecodeCycle := by
  unfold Obligations.AddDecodeCycle
  exact fun s rs rt rd shamt h hs => exec_eq_synchronous h hs (.add rs rt rd shamt)

/-- Settles O14: `sub` writes its row and the R-shape snapshot. -/
theorem subDecodeCycle : Obligations.SubDecodeCycle := by
  unfold Obligations.SubDecodeCycle
  exact fun s rs rt rd shamt h hs => exec_eq_synchronous h hs (.sub rs rt rd shamt)

/-- Settles O15: `lb` writes its row and the I-shape snapshot. -/
theorem lbDecodeCycle : Obligations.LbDecodeCycle := by
  unfold Obligations.LbDecodeCycle
  exact fun s rs rt imm h hs => exec_eq_synchronous h hs (.lb rs rt imm)

/-- Settles O16: `sb` writes its row and the I-shape snapshot. -/
theorem sbDecodeCycle : Obligations.SbDecodeCycle := by
  unfold Obligations.SbDecodeCycle
  exact fun s rs rt imm h hs => exec_eq_synchronous h hs (.sb rs rt imm)

/-- Settles O17: for a decode-table miss decode writes the bubble and raises the miss. -/
theorem unsupportedDecodeCycle : Obligations.UnsupportedDecodeCycle := by
  unfold Obligations.UnsupportedDecodeCycle
  rintro s w h ⟨-, -, -, hexmem, -, hmemwb⟩ hw hd
  have payload : wordPayload w s = { IDEX.noop with iw := w } := by
    rw [wordPayload, hd]
    rfl
  have errors : decodeErrors w = [.decodeMiss w] := by rw [decodeErrors_eq_ite, if_pos hd]
  rw [step_eq_synchronous h hexmem hmemwb, hw, payload, errors]

/-- Settles O18: the word that a cycle fetches is in decode in the next one. -/
theorem stepRunsTheDecodedInstruction : Obligations.StepRunsTheDecodedInstruction := by
  unfold Obligations.StepRunsTheDecodedInstruction
  refine ⟨fun s i => step_eq_exec, fun s t i h hs hd => ?_⟩
  obtain rfl := step_next_of_lt h hs
  exact step_eq_exec hd

/-! ## Fetch and the latch copy (R92, R102) -/

/-- Settles O20: fetch takes the word at the fetch index, in a cycle as by itself. -/
theorem fetchTakesTheNextWord : Obligations.FetchTakesTheNextWord := by
  unfold Obligations.FetchTakesTheNextWord
  refine ⟨fun s h => fetch_of_lt h, fun s t h hs => ?_⟩
  obtain rfl := step_next_of_lt h hs
  exact ⟨rfl, rfl⟩

/-- Settles O26: the synchronous update of a cycle gives both sides of each latch the same payload. -/
theorem latchCopyEndsTheCycle : Obligations.LatchCopyEndsTheCycle := by
  unfold Obligations.LatchCopyEndsTheCycle
  refine ⟨fun s => rfl, fun s t h hs => ?_⟩
  obtain rfl := step_next_of_lt h hs
  exact ⟨rfl, rfl, rfl, rfl, rfl⟩

/-! ## Execute (R96 to R98) -/

/-- Two values and an operation give what the ALU computes from them. -/
theorem aluResult_of_some {d : IDEX} {op : AluOp} {a b : Word} (hop : d.ctl.aluOp = some op)
    (ha : d.readReg1Value = some a) (hb : aluOperandB d = some b) :
    aluResult d = alu op (fieldsOf d.iw).funct a b := by
  simp only [aluResult, hop, ha, hb]

/-- `DC` in the operation or in an operand gives `DC`. -/
theorem aluResult_eq_none {d : IDEX} (h : d.ctl.aluOp = none ∨ d.readReg1Value = none ∨ aluOperandB d = none) :
    aluResult d = DC := by
  rcases h with h | h | h
  · simp [aluResult, h]
  · simp [aluResult, h]
  · simp [aluResult, h]

/-- The function code is the low six bits of the word (R71). -/
theorem funct_eq_iff (w : Word) (funct : BitVec 6) : (fieldsOf w).funct = funct ↔ w.toNat % 64 = funct.toNat := by
  have low : (fieldsOf w).funct.toNat = w.toNat % 64 :=
    (toNat_extractLsb'_eq w 0 6).trans (by simp)
  rw [← low, BitVec.toNat_inj]

theorem toNat_sub_eq_emod (a b : Word) : ((a - b).toNat : Int) = ((a.toNat : Int) - b.toNat) % 2 ^ 32 := by
  have := a.isLt
  have := b.isLt
  rw [BitVec.toNat_sub]
  omega

/-- Settles O21: `DC` is tested first, and then the operation and the function code select the sum or the difference. -/
theorem aluResultRule : Obligations.AluResultRule := by
  unfold Obligations.AluResultRule
  intro d
  refine ⟨aluResult_eq_none, fun a b ha hb => ⟨fun hop => ?_, fun hop => ?_⟩⟩
  · exact ⟨a + b, aluResult_of_some hop ha hb, BitVec.toNat_add a b⟩
  · have result : aluResult d = alu .byFunct (fieldsOf d.iw).funct a b := aluResult_of_some hop ha hb
    refine ⟨fun hadd => ⟨a + b, ?_, BitVec.toNat_add a b⟩, fun hsub => ⟨a - b, ?_, toNat_sub_eq_emod a b⟩,
      fun hadd hsub => ?_⟩
    · exact result.trans (by simp [alu, (funct_eq_iff d.iw functAdd).2 hadd])
    · exact result.trans (by simp [alu, (funct_eq_iff d.iw functSub).2 hsub])
    · exact result.trans
        (by simp [alu, mt (funct_eq_iff d.iw functAdd).1 hadd, mt (funct_eq_iff d.iw functSub).1 hsub])

/-- Settles O22: EXMEM takes the payload that execute makes of IDEX, with the destination by the value of `RegDst`. -/
theorem executeHandsOn : Obligations.ExecuteHandsOn := by
  unfold Obligations.ExecuteHandsOn
  refine ⟨fun s => rfl, rfl, fun s t h hs => ?_⟩
  obtain rfl := step_next_of_lt h hs
  refine ⟨rfl, rfl, rfl, rfl, rfl, rfl, rfl, fun hdst => ?_, fun hdst => ?_, fun hdst => ?_⟩
  all_goals
    show selectedWriteReg s.idex.read = _
    simp only [selectedWriteReg, hdst]

/-! ## Memory-access (R99) -/

/-- Memory-access changes memory for a store alone. -/
theorem memoryAfter_of_not_store {e : EXMEM} (h : e.memRead = true ∨ e.memWrite = false) (memSize : Nat) (mem : Memory) :
    memoryAfter memSize mem e = mem := by
  rcases h with h | h <;> simp [memoryAfter, h]

theorem memoryAfter_outOfRange {memSize : Nat} {e : EXMEM} {ea : Word} (hea : e.aluResult = some ea)
    (hout : memSize ≤ ea.toNat) (mem : Memory) : memoryAfter memSize mem e = mem := by
  unfold memoryAfter
  split
  next hea' _ =>
    obtain rfl := Option.some.inj (hea.symm.trans hea')
    exact if_neg (Nat.not_lt.2 hout)
  next => rfl

theorem memoryAfter_store_inRange {memSize : Nat} {e : EXMEM} {ea v : Word} (hr : e.memRead = false)
    (hw : e.memWrite = true) (hea : e.aluResult = some ea) (hv : e.storeValue = some v) (hin : ea.toNat < memSize)
    (mem : Memory) : memoryAfter memSize mem e = mem.write ea.toNat (v.setWidth 8) := by
  simp [memoryAfter, hr, hw, hea, hv, hin]

theorem accessErrors_of_inRange {memSize : Nat} {e : EXMEM} {ea : Word} (hea : e.aluResult = some ea)
    (hin : ea.toNat < memSize) : accessErrors memSize e = [] := by
  simp [accessErrors, hea, hin]

theorem accessErrors_of_no_access {e : EXMEM} (hr : e.memRead = false) (hw : e.memWrite = false) (memSize : Nat) :
    accessErrors memSize e = [] := by
  cases hea : e.aluResult <;> simp [accessErrors, hea, hr, hw]

theorem accessErrors_of_outOfRange {memSize : Nat} {e : EXMEM} {ea : Word} (hacc : e.memRead = true ∨ e.memWrite = true)
    (hea : e.aluResult = some ea) (hout : memSize ≤ ea.toNat) :
    accessErrors memSize e = [.addressOutOfRange ea] := by
  simp only [accessErrors, hea]
  exact if_pos ⟨hacc, hout⟩

/-- Only a load hands on a loaded value, and only a load has its register write squashed. -/
theorem accessResult_of_not_load {e : EXMEM} (hr : e.memRead = false) (memSize : Nat) (mem : Memory) :
    (accessResult memSize mem e).loadedValue = none ∧ (accessResult memSize mem e).regWrite = e.regWrite := by
  simp [accessResult, hr]

theorem accessResult_regWrite {memSize : Nat} {e : EXMEM} (h : accessErrors memSize e = []) (mem : Memory) :
    (accessResult memSize mem e).regWrite = e.regWrite := by
  simp [accessResult, h]

/-- A load out of range hands on nothing and squashes its register write (R162). -/
theorem accessResult_load_outOfRange {memSize : Nat} {e : EXMEM} {ea : Word} (hr : e.memRead = true)
    (hea : e.aluResult = some ea) (hout : memSize ≤ ea.toNat) (mem : Memory) :
    (accessResult memSize mem e).loadedValue = none ∧ (accessResult memSize mem e).regWrite = false := by
  simp [accessResult, accessErrors_of_outOfRange (.inl hr) hea hout, hr, hea, Nat.not_lt.2 hout]

/-- A cycle whose access raises nothing reports nothing but decode's error. -/
theorem step_noAccessError {s t : State} (h : s.pc < s.stream.length) (hs : step s = .next t)
    (hnone : accessErrors s.memSize s.exmem.read = []) : NoAccessError s t := by
  obtain rfl := step_next_of_lt h hs
  intro q hq
  simp only [synchronous, hnone, List.append_nil, List.mem_append, List.mem_map] at hq
  rcases hq with hq | ⟨e, he, rfl⟩
  · exact .inl hq
  · obtain ⟨w, -, rfl⟩ := List.mem_map.1 he
    exact .inr ⟨w, rfl⟩

/-- An access out of range is reported, whatever decode raises (R162). -/
theorem step_reports_outOfRange {s t : State} {ea : Word} (h : s.pc < s.stream.length) (hs : step s = .next t)
    (hraised : accessErrors s.memSize s.exmem.read = [.addressOutOfRange ea]) :
    t.fault = true ∧ (s.cycle + 1, Error.addressOutOfRange ea) ∈ t.err := by
  obtain rfl := step_next_of_lt h hs
  simp [synchronous, hraised]

/-- Settles O24: the branches of R99, each with what it hands on, what it leaves in memory and what it reports. -/
theorem memoryAccessStage : Obligations.MemoryAccessStage := by
  unfold Obligations.MemoryAccessStage
  rintro s t h ⟨-, -, -, ⟨-, haddr, hstore, -⟩, -⟩ hs
  have quiet := step_noAccessError h hs
  have reported {ea : Word} := step_reports_outOfRange (ea := ea) h hs
  obtain rfl := step_next_of_lt h hs
  refine ⟨⟨rfl, rfl, rfl, rfl⟩, fun hr => ?load, fun hr => accessResult_of_not_load hr s.memSize s.mem,
    fun hr hw => ?store, fun hr hw => ?other⟩
  case load =>
    obtain ⟨ea, hea⟩ := Option.isSome_iff_exists.1 (haddr (.inl hr))
    refine ⟨ea, hea, memoryAfter_of_not_store (.inl hr) s.memSize s.mem, fun hin => ?_, fun hout => ?_⟩
    · have none_raised := accessErrors_of_inRange hea hin
      exact ⟨accessResult_load s.mem hr hea hin, accessResult_regWrite none_raised s.mem, quiet none_raised⟩
    · obtain ⟨loaded, squashed⟩ := accessResult_load_outOfRange hr hea hout s.mem
      exact ⟨loaded, squashed, reported (accessErrors_of_outOfRange (.inl hr) hea hout)⟩
  case store =>
    obtain ⟨ea, hea⟩ := Option.isSome_iff_exists.1 (haddr (.inr hw))
    obtain ⟨v, hv⟩ := Option.isSome_iff_exists.1 (hstore hw)
    refine ⟨ea, v, hea, hv, fun hin => ⟨read_memoryAfter_store hr hw hea hv hin, fun a ha => ?_,
      quiet (accessErrors_of_inRange hea hin)⟩, fun hout => ⟨memoryAfter_outOfRange hea hout s.mem,
      reported (accessErrors_of_outOfRange (.inr hw) hea hout)⟩⟩
    have stored := memoryAfter_store_inRange hr hw hea hv hin s.mem
    exact (congrArg (Memory.read · a) stored).trans (read_write_other s.mem _ ha)
  case other =>
    exact ⟨memoryAfter_of_not_store (.inr hw) s.memSize s.mem, quiet (accessErrors_of_no_access hr hw s.memSize)⟩

/-! ## Write-back (R100) -/

theorem get_applyWrite_other (regs : Vector Word 32) {r q : RegIdx} (v : Word) (h : q ≠ r) :
    (applyWrite regs (some (r, v))).get q.toFin = regs.get q.toFin := by
  have : r.toNat ≠ q.toNat := fun e => h (BitVec.eq_of_toNat_eq e.symm)
  simp [applyWrite, Vector.get_eq_getElem, Vector.getElem_set_ne, this]

/-- A register write that R108 admits has a destination, and its value is the loaded byte, zero-extended, or the ALU
result, as `MemToReg` says. -/
theorem registerWrite_of_regWrite {m : MEMWB} (h : MEMWB.Ok m) (hw : m.regWrite = true) :
    ∃ r v, m.writeReg = some r ∧ registerWrite m = some (r, v) ∧
      (m.memToReg = some true → ∃ b, m.loadedValue = some b ∧ v = b.setWidth 32) ∧
      (m.memToReg = some false → m.aluResult = some v) := by
  obtain ⟨hdst, hload, halu, -⟩ := h
  obtain ⟨hr, hsel⟩ := hdst hw
  obtain ⟨r, hr⟩ := Option.isSome_iff_exists.1 hr
  obtain ⟨fromLoad, hsel⟩ := Option.isSome_iff_exists.1 hsel
  cases fromLoad with
  | true =>
    obtain ⟨b, hb⟩ := Option.isSome_iff_exists.1 (hload hw hsel)
    exact ⟨r, b.setWidth 32, hr, by simp [registerWrite, hw, hr, hsel, hb], fun _ => ⟨b, hb, rfl⟩, by simp [hsel]⟩
  | false =>
    obtain ⟨v, hv⟩ := Option.isSome_iff_exists.1 (halu hw hsel)
    exact ⟨r, v, hr, by simp [registerWrite, hw, hr, hsel, hv], by simp [hsel], fun _ => hv⟩

/-- Settles O25: the registers after a cycle are those before it with the one write that MEMWB stands for. -/
theorem writeBackStage : Obligations.WriteBackStage := by
  unfold Obligations.WriteBackStage
  constructor
  · intro s t hs
    rw [writeBack_next hs]
  · rintro s t h ⟨-, -, -, -, -, hmemwb⟩ hs
    obtain rfl := step_next_of_lt h hs
    refine ⟨fun hw => ?_, fun hw => ?_⟩
    · have no_write : registerWrite s.memwb.read = none := by simp [registerWrite, hw]
      exact congrArg (applyWrite s.regs) no_write
    · obtain ⟨r, v, hr, write, from_load, from_alu⟩ := registerWrite_of_regWrite hmemwb hw
      simp only [State.reg, synchronous, write]
      refine ⟨r, hr, fun q hq => get_applyWrite_other s.regs v hq, fun hm => ?_, fun hm => ⟨v, from_alu hm, ?_⟩⟩
      · obtain ⟨b, hb, rfl⟩ := from_load hm
        exact ⟨b, hb, by rw [get_applyWrite_same, BitVec.toNat_setWidth_of_le (by decide)]⟩
      · exact get_applyWrite_same s.regs r v

end Sys2Proof.Proofs

/-! An instruction's passage through the pipeline, from the cycle that decodes it to its write-back, and the statements of
41_arith.md settled from it. -/

namespace Sys2Proof.Proofs

open Sys2Proof.Machine Sys2Proof.Safety Sys2Proof.Laws

/-! ## The cycle of an instruction, and the cycles behind it (R101, R105) -/

/-- The state after the cycle that decodes `i` in `s`, as the synchronous update of R104. -/
def afterExec (i : Instr) (s : State) : State :=
  synchronous (s.stream.getD s.pc Word.noop) (instrPayload i s) [] s

@[simp] theorem afterExec_pc (i : Instr) (s : State) : (afterExec i s).pc = s.pc + 1 := rfl
@[simp] theorem afterExec_stream (i : Instr) (s : State) : (afterExec i s).stream = s.stream := rfl

theorem exec_eq_afterExec {s : State} (h : s.pc < s.stream.length) (hs : s.LatchesOk) (i : Instr) :
    exec i s = .next (afterExec i s) := by
  rw [afterExec, List.getD_eq_getElem _ _ h]
  exact exec_eq_synchronous h hs i

theorem decodeErrors_encode (i : Instr) : decodeErrors (encode i) = [] := by
  simp [decodeErrors_eq_ite, decode_encode]

/-- With a word left to fetch, placing a word in decode changes nothing else. -/
theorem withWordInDecode_of_lt {s : State} (h : s.pc < s.stream.length) (w : Word) :
    s.withWordInDecode w = { s with ifid := { s.ifid with read := { iw := w } } } := by
  simp [State.withWordInDecode, Nat.sub_eq_zero_of_le (Nat.succ_le_of_lt h)]

/-- The cycle of an instruction is the cycle of the state that holds its word in decode. -/
theorem afterExec_eq_afterCycle {s : State} (h : s.pc < s.stream.length) (i : Instr) :
    afterExec i s = afterCycle (s.withWordInDecode (encode i)) := by
  have payload : wordPayload (encode i) (s.withWordInDecode (encode i)) = instrPayload i s := by
    rw [← wordPayload_encode]
    exact wordPayload_congr (encode i) rfl
  rw [afterExec, ← payload, ← decodeErrors_encode i, withWordInDecode_of_lt h]
  rfl

/-- The cycle of an instruction keeps the invariant, which says nothing of the word in decode. -/
theorem inv_afterExec {s : State} (h : s.pc < s.stream.length) (hs : s.Inv) (i : Instr) : (afterExec i s).Inv := by
  have placed : (s.withWordInDecode (encode i)).Inv := by
    rw [withWordInDecode_of_lt h]
    exact hs
  rw [afterExec_eq_afterCycle h]
  exact inv_afterCycle (withWordInDecode_room s (encode i)) placed

theorem inv_iterate_afterCycle {k : Nat} {s : State} (hs : s.Inv) (h : s.pc + k ≤ s.stream.length) :
    (afterCycle^[k] s).Inv := by
  induction k generalizing s with
  | zero => exact hs
  | succ k ih =>
    rw [Function.iterate_succ_apply]
    apply ih (inv_afterCycle (by omega) hs)
    rw [afterCycle_pc, afterCycle_stream]
    omega

/-- While words are left, each step behind the cycle of an instruction is one more cycle. -/
theorem step_iterate_afterExec {k : Nat} {s : State} (hs : s.Inv) (h : s.pc + 1 + k < s.stream.length) (i : Instr) :
    step (afterCycle^[k] (afterExec i s)) = .next (afterCycle^[k + 1] (afterExec i s)) := by
  obtain ⟨⟨-, latches⟩, -⟩ : (afterCycle^[k] (afterExec i s)).Inv :=
    inv_iterate_afterCycle (inv_afterExec (by omega) hs i) (Nat.le_of_lt h)
  rw [Function.iterate_succ_apply']
  exact step_eq_afterCycle (by simpa using h) latches

/-! ## The passage of an arithmetic instruction (R130, R131) -/

/-- What execute hands on for an instruction that puts the ALU result `v` into `rd`: no access, and a register write from
the ALU (R98). -/
structure WritesAluResult (e : EXMEM) (rd : RegIdx) (v : Word) : Prop where
  memRead : e.memRead = false
  memWrite : e.memWrite = false
  memToReg : e.memToReg = some false
  regWrite : e.regWrite = true
  aluResult : e.aluResult = some v
  writeReg : e.writeReg = some rd

theorem writesAluResult_add (rs rt rd : RegIdx) (shamt : BitVec 5) (s : State) :
    WritesAluResult (executePayload (instrPayload (.add rs rt rd shamt) s)) rd (s.reg rs + s.reg rt) := by
  rw [executePayload_add]
  exact ⟨rfl, rfl, rfl, rfl, rfl, rfl⟩

theorem writesAluResult_sub (rs rt rd : RegIdx) (shamt : BitVec 5) (s : State) :
    WritesAluResult (executePayload (instrPayload (.sub rs rt rd shamt) s)) rd (s.reg rs - s.reg rt) := by
  rw [executePayload_sub]
  exact ⟨rfl, rfl, rfl, rfl, rfl, rfl⟩

/-- Memory-access passes the register write on to write-back (R99). -/
theorem WritesAluResult.registerWrite_accessResult {e : EXMEM} {rd : RegIdx} {v : Word} (h : WritesAluResult e rd v)
    (memSize : Nat) (mem : Memory) : registerWrite (accessResult memSize mem e) = some (rd, v) := by
  simp [registerWrite, accessResult, h.memRead, h.memToReg, h.regWrite, h.aluResult, h.writeReg]

/-- The registers after a cycle whose write-back holds the write of `v` into `r`. -/
theorem afterCycle_reg {s : State} {r : RegIdx} {v : Word} (h : registerWrite s.memwb.read = some (r, v)) :
    (afterCycle s).reg r = v ∧ ∀ q, q ≠ r → (afterCycle s).reg q = s.reg q := by
  have regs : (afterCycle s).regs = applyWrite s.regs (some (r, v)) := congrArg (applyWrite s.regs) h
  simp only [State.reg, regs]
  exact ⟨get_applyWrite_same s.regs r v, fun q hq => get_applyWrite_other s.regs v hq⟩

/-- An instruction with an ALU result makes no access in its third cycle and writes the result in its fourth. -/
theorem passage_of_writesAluResult {s : State} {i : Instr} {rd : RegIdx} {v : Word} (hs : s.Inv)
    (hroom : s.pc + 4 ≤ s.stream.length) (hi : WritesAluResult (executePayload (instrPayload i s)) rd v) :
    ∃ t₁ t₂ t₃ t₄, exec i s = .next t₁ ∧ step t₁ = .next t₂ ∧ step t₂ = .next t₃ ∧ step t₃ = .next t₄ ∧
      NoAccessError t₂ t₃ ∧ t₃.mem = t₂.mem ∧ t₃.memwb.read.loadedValue = none ∧
      t₄.reg rd = v ∧ ∀ q, q ≠ rd → t₄.reg q = t₃.reg q := by
  have decoded := exec_eq_afterExec (by omega) hs.1.2 i
  have next (k : Nat) (hk : k < 3) := step_iterate_afterExec (k := k) hs (by omega) i
  let t₁ := afterExec i s
  let t₂ := afterCycle t₁
  have third : step t₂ = .next (afterCycle t₂) := next 1 (by decide)
  have room : t₂.pc < t₂.stream.length := by
    show s.pc + 2 < s.stream.length
    omega
  have in_access : t₂.exmem.read = executePayload (instrPayload i s) := rfl
  rw [← in_access] at hi
  exact ⟨t₁, t₂, afterCycle t₂, afterCycle (afterCycle t₂), decoded, next 0 (by decide), third, next 2 (by decide),
    step_noAccessError room third (accessErrors_of_no_access hi.memRead hi.memWrite t₂.memSize),
    memoryAfter_of_not_store (.inr hi.memWrite) t₂.memSize t₂.mem,
    (accessResult_of_not_load hi.memRead t₂.memSize t₂.mem).1,
    afterCycle_reg (hi.registerWrite_accessResult t₂.memSize t₂.mem)⟩

/-- Settles O29: the ALU result of `add` is the sum of the two registers that decode read. -/
theorem addWritesTheSum : Obligations.AddWritesTheSum := by
  unfold Obligations.AddWritesTheSum
  intro s rs rt rd shamt hs hroom
  obtain ⟨t₁, t₂, t₃, t₄, h₁, h₂, h₃, h₄, no_error, mem, loaded, result, others⟩ :=
    passage_of_writesAluResult hs hroom (writesAluResult_add rs rt rd shamt s)
  refine ⟨t₁, t₂, t₃, t₄, h₁, h₂, h₃, h₄, no_error, mem, loaded, ?_, others⟩
  rw [result, BitVec.toNat_add]

/-- Settles O30: the ALU result of `sub` is the difference of the two registers that decode read. -/
theorem subWritesTheDifference : Obligations.SubWritesTheDifference := by
  unfold Obligations.SubWritesTheDifference
  intro s rs rt rd shamt hs hroom
  obtain ⟨t₁, t₂, t₃, t₄, h₁, h₂, h₃, h₄, no_error, mem, loaded, result, others⟩ :=
    passage_of_writesAluResult hs hroom (writesAluResult_sub rs rt rd shamt s)
  refine ⟨t₁, t₂, t₃, t₄, h₁, h₂, h₃, h₄, no_error, mem, loaded, ?_, others⟩
  rw [result, toNat_sub_eq_emod]

end Sys2Proof.Proofs

/-! The passage of a load and of a store through memory-access and write-back, and the statements of 42_loadstore.md
settled from it. -/

namespace Sys2Proof.Proofs

open Sys2Proof.Machine Sys2Proof.Safety Sys2Proof.Laws

/-! ## The effective address (R142) -/

theorem toNat_effectiveAddress (base : Word) (imm : Imm16) :
    ((effectiveAddress base imm).toNat : Int) = (base.toNat + imm.toInt) % 2 ^ 32 := by
  have wrapped : ((sext32 imm).toNat : Int) = imm.toInt % 2 ^ 32 := by
    rw [sext32, BitVec.signExtend, BitVec.toNat_ofInt]
    omega
  rw [effectiveAddress, BitVec.toNat_add]
  omega

/-- Settles O23: both rows of R90 select the base and the extended offset and make the ALU add. -/
theorem effectiveAddressRule : Obligations.EffectiveAddressRule := by
  unfold Obligations.EffectiveAddressRule
  intro s rs rt imm c iw hc
  have adds : (executePayload (iShapePayload iw c rs rt imm s)).aluResult = some (effectiveAddress (s.reg rs) imm) := by
    rcases hc with rfl | rfl <;> rfl
  exact ⟨_, adds, toNat_effectiveAddress (s.reg rs) imm⟩

/-! ## The third cycle of an instruction, and its fourth (R99, R100, R105) -/

/-- The state in which `i`, decoded in `s`, is in memory-access: its third cycle starts here. -/
def beforeAccess (i : Instr) (s : State) : State := afterCycle (afterExec i s)

@[simp] theorem beforeAccess_exmem_read (i : Instr) (s : State) :
    (beforeAccess i s).exmem.read = executePayload (instrPayload i s) := rfl

theorem beforeAccess_room {s : State} (h : s.pc + 4 ≤ s.stream.length) (i : Instr) :
    (beforeAccess i s).pc < (beforeAccess i s).stream.length := by
  show s.pc + 2 < s.stream.length
  omega

/-- The four cycles of an instruction answer next states (R105). -/
theorem four_cycles {s : State} (hs : s.Inv) (h : s.pc + 4 ≤ s.stream.length) (i : Instr) :
    exec i s = .next (afterExec i s) ∧ step (afterExec i s) = .next (beforeAccess i s) ∧
    step (beforeAccess i s) = .next (afterCycle (beforeAccess i s)) ∧
    step (afterCycle (beforeAccess i s)) = .next (afterCycle (afterCycle (beforeAccess i s))) := by
  have next (k : Nat) (hk : k < 3) := step_iterate_afterExec (k := k) hs (by omega) i
  exact ⟨exec_eq_afterExec (by omega) hs.1.2 i, next 0 (by decide), next 1 (by decide), next 2 (by decide)⟩

/-- A memory instruction in memory-access asks for an access at its effective address (R98). -/
theorem beforeAccess_of_accessAddress {i : Instr} {s : State} {mem : Memory} {ea : Word}
    (h : accessAddress i ⟨s.regs, mem⟩ = some ea) :
    (beforeAccess i s).exmem.read.aluResult = some ea ∧
    ((beforeAccess i s).exmem.read.memRead = true ∨ (beforeAccess i s).exmem.read.memWrite = true) := by
  rw [beforeAccess_exmem_read]
  cases i with
  | nop | add | sub => cases h
  | lb rs rt imm =>
    rw [executePayload_lb, effectiveAddress_reg]
    exact ⟨h, .inl rfl⟩
  | sb rs rt imm =>
    rw [executePayload_sb, effectiveAddress_reg]
    exact ⟨h, .inr rfl⟩

/-- The third cycle performs the store of the instruction, with the operands that its decode read. -/
theorem mem_afterCycle_beforeAccess (i : Instr) (s : State) :
    (afterCycle (beforeAccess i s)).mem = storeOf s.memSize i ⟨s.regs, (beforeAccess i s).mem⟩ :=
  memoryAfter_instrPayload s.memSize (beforeAccess i s).mem i s

/-- The third cycle hands the register write of the instruction on to write-back, with the operands that its decode read
and the memory that its access finds. -/
theorem registerWrite_afterCycle_beforeAccess (i : Instr) (s : State) :
    registerWrite (afterCycle (beforeAccess i s)).memwb.read = writeOf s.memSize i ⟨s.regs, (beforeAccess i s).mem⟩ :=
  registerWrite_instrPayload s.memSize (beforeAccess i s).mem i s

/-- A memory instruction whose address is out of range writes no register: a store writes none, and the write of a load
is squashed (R162). -/
theorem writeOf_outOfRange {memSize : Nat} {i : Instr} {a : Arch} {ea : Word} (h : accessAddress i a = some ea)
    (hout : memSize ≤ ea.toNat) : writeOf memSize i a = none := by
  cases i with
  | nop | add | sub => cases h
  | lb rs rt imm =>
    obtain rfl := Option.some.inj h
    exact if_neg (Nat.not_lt.2 hout)
  | sb => rfl

theorem afterCycle_regs_of_no_write {s : State} (h : registerWrite s.memwb.read = none) :
    (afterCycle s).regs = s.regs :=
  congrArg (applyWrite s.regs) h

theorem mem_errAt {s : State} {c : Nat} {e : Error} (h : (c, e) ∈ s.err) : e ∈ s.errAt c :=
  List.mem_map.2 ⟨(c, e), List.mem_filter.2 ⟨h, beq_self_eq_true c⟩, rfl⟩

/-- The access of a memory instruction with its address in range raises nothing. -/
theorem noAccessError_of_inRange {s : State} {i : Instr} {mem : Memory} {ea : Word} (hs : s.Inv)
    (hroom : s.pc + 4 ≤ s.stream.length) (hea : accessAddress i ⟨s.regs, mem⟩ = some ea) (hin : ea.toNat < s.memSize) :
    NoAccessError (beforeAccess i s) (afterCycle (beforeAccess i s)) := by
  obtain ⟨-, -, third, -⟩ := four_cycles hs hroom i
  obtain ⟨address, -⟩ := beforeAccess_of_accessAddress hea
  exact step_noAccessError (beforeAccess_room hroom i) third (accessErrors_of_inRange address hin)

/-- A memory instruction with its address out of range reports it in its third cycle, and changes neither memory nor, in
its fourth, a register (R162). -/
theorem passage_outOfRange {s : State} {i : Instr} {ea : Word} (hs : s.Inv) (hroom : s.pc + 4 ≤ s.stream.length)
    (hea : accessAddress i ⟨s.regs, (beforeAccess i s).mem⟩ = some ea) (hout : s.memSize ≤ ea.toNat) :
    ∃ t₁ t₂ t₃ t₄, exec i s = .next t₁ ∧ step t₁ = .next t₂ ∧ step t₂ = .next t₃ ∧ step t₃ = .next t₄ ∧
      t₃.mem = t₂.mem ∧ t₃.fault = true ∧ Error.addressOutOfRange ea ∈ t₃.errAt (s.cycle + 3) ∧ t₄.regs = t₃.regs := by
  obtain ⟨first, second, third, fourth⟩ := four_cycles hs hroom i
  obtain ⟨address, access⟩ := beforeAccess_of_accessAddress hea
  obtain ⟨fault, reported⟩ :=
    step_reports_outOfRange (beforeAccess_room hroom i) third (accessErrors_of_outOfRange access address hout)
  have no_write : registerWrite (afterCycle (beforeAccess i s)).memwb.read = none :=
    (registerWrite_afterCycle_beforeAccess i s).trans (writeOf_outOfRange hea hout)
  exact ⟨_, _, _, _, first, second, third, fourth, memoryAfter_outOfRange address hout _, fault, mem_errAt reported,
    afterCycle_regs_of_no_write no_write⟩

/-! ## `lb` and `sb` (R140, R141) -/

/-- Settles O31: the register write of `lb` is the byte at its address, as memory stands when the access is made. -/
theorem lbLoadsTheByte : Obligations.LbLoadsTheByte := by
  unfold Obligations.LbLoadsTheByte
  intro s rs rt imm hs hroom hin
  obtain ⟨first, second, third, fourth⟩ := four_cycles hs hroom (.lb rs rt imm)
  rw [effectiveAddress_reg] at hin ⊢
  have write := (registerWrite_afterCycle_beforeAccess (.lb rs rt imm) s).trans (if_pos hin)
  obtain ⟨loaded, others⟩ := afterCycle_reg write
  refine ⟨_, _, _, _, first, second, third, fourth, noAccessError_of_inRange (mem := s.mem) hs hroom rfl hin,
    mem_afterCycle_beforeAccess (.lb rs rt imm) s, ?_, others⟩
  rw [loaded, BitVec.toNat_setWidth_of_le (by decide)]
  rfl

/-- Settles O32: this is the passage of a memory instruction out of range, for `lb`. -/
theorem lbOutOfRange : Obligations.LbOutOfRange := by
  unfold Obligations.LbOutOfRange
  intro s rs rt imm hs hroom hout
  exact passage_outOfRange (i := .lb rs rt imm) hs hroom (congrArg some (effectiveAddress_reg s rs imm).symm) hout

/-- Settles O33: the third cycle writes the low byte at the effective address, and `sb` has no register write. -/
theorem sbStoresTheLowByte : Obligations.SbStoresTheLowByte := by
  unfold Obligations.SbStoresTheLowByte
  intro s rs rt imm hs hroom hin
  obtain ⟨first, second, third, fourth⟩ := four_cycles hs hroom (.sb rs rt imm)
  rw [effectiveAddress_reg] at hin ⊢
  have stored := (mem_afterCycle_beforeAccess (.sb rs rt imm) s).trans (if_pos hin)
  refine ⟨_, _, _, _, first, second, third, fourth, noAccessError_of_inRange (mem := s.mem) hs hroom rfl hin, ?_,
    fun a ha => ?_, afterCycle_regs_of_no_write (registerWrite_afterCycle_beforeAccess (.sb rs rt imm) s)⟩
  · rw [State.cell, stored, read_write_same, BitVec.toNat_setWidth, reg_eq_regOf]
  · rw [State.cell, stored, read_write_other _ _ ha]
    rfl

/-- Settles O34: this is the passage of a memory instruction out of range, for `sb`. -/
theorem sbOutOfRange : Obligations.SbOutOfRange := by
  unfold Obligations.SbOutOfRange
  intro s rs rt imm hs hroom hout
  exact passage_outOfRange (i := .sb rs rt imm) hs hroom (congrArg some (effectiveAddress_reg s rs imm).symm) hout

end Sys2Proof.Proofs

/-! The passage of a no-op and of an unsupported word through the pipeline, the cycle of empty latches, and the statements
of 43_noop_unsupported.md settled from them. -/

namespace Sys2Proof.Proofs

open Sys2Proof.Machine Sys2Proof.Safety Sys2Proof.Laws

/-! ## The passage of a bubble (R37, R95): the NOOP payload with the word that decode held -/

theorem executePayload_bubble (w : Word) :
    executePayload { IDEX.noop with iw := w } = { EXMEM.noop with iw := w } := rfl

/-- Memory-access makes no access for a bubble, and hands it on (R99). -/
theorem accessResult_bubble (memSize : Nat) (mem : Memory) (w : Word) :
    accessResult memSize mem { EXMEM.noop with iw := w } = { MEMWB.noop with iw := w } := rfl

theorem registerWrite_bubble (w : Word) : registerWrite { MEMWB.noop with iw := w } = none := rfl

/-- A step with a word left that starts in the invariant is a cycle and ends in the invariant. -/
theorem step_and_inv_afterCycle {s : State} (h : s.pc < s.stream.length) (hs : s.Inv) :
    step s = .next (afterCycle s) ∧ (afterCycle s).Inv :=
  ⟨step_eq_afterCycle h hs.1.2, inv_afterCycle h hs⟩

/-- A bubble that decode has left in IDEX moves down the latches; its third cycle makes no access and its fourth writes no
register. -/
theorem passage_of_bubble {t₁ : State} {w : Word} (hs : t₁.Inv) (hroom : t₁.pc + 3 ≤ t₁.stream.length)
    (hb : t₁.idex.read = { IDEX.noop with iw := w }) :
    ∃ t₂ t₃ t₄, step t₁ = .next t₂ ∧ step t₂ = .next t₃ ∧ step t₃ = .next t₄ ∧ NoAccessError t₂ t₃ ∧
      t₂.exmem.read = { EXMEM.noop with iw := w } ∧ t₃.memwb.read = { MEMWB.noop with iw := w } ∧
      t₃.mem = t₂.mem ∧ t₄.regs = t₃.regs := by
  let t₂ := afterCycle t₁
  let t₃ := afterCycle t₂
  have room₂ : t₂.pc < t₂.stream.length := Nat.lt_of_succ_lt hroom
  obtain ⟨second, inv₂⟩ := step_and_inv_afterCycle (by omega) hs
  obtain ⟨third, inv₃⟩ := step_and_inv_afterCycle room₂ inv₂
  obtain ⟨fourth, -⟩ := step_and_inv_afterCycle (s := t₃) hroom inv₃
  have in_exmem : t₂.exmem.read = { EXMEM.noop with iw := w } :=
    (congrArg executePayload hb).trans (executePayload_bubble w)
  have in_memwb : t₃.memwb.read = { MEMWB.noop with iw := w } :=
    (congrArg (accessResult t₂.memSize t₂.mem) in_exmem).trans (accessResult_bubble t₂.memSize t₂.mem w)
  have no_load : t₂.exmem.read.memRead = false := by rw [in_exmem]
  have no_store : t₂.exmem.read.memWrite = false := by rw [in_exmem]
  have no_write : registerWrite t₃.memwb.read = none := by rw [in_memwb, registerWrite_bubble]
  exact ⟨t₂, t₃, afterCycle t₃, second, third, fourth,
    step_noAccessError room₂ third (accessErrors_of_no_access no_load no_store t₂.memSize), in_exmem, in_memwb,
    memoryAfter_of_not_store (.inr no_store) t₂.memSize t₂.mem, afterCycle_regs_of_no_write no_write⟩

/-- Settles O35: the decode cycle of `nop` raises nothing and leaves the bubble whose word is the NOOP word. -/
theorem nopDoesNothing : Obligations.NopDoesNothing := by
  unfold Obligations.NopDoesNothing
  intro s hs hroom
  have decoded : exec .nop s = .next (afterExec .nop s) := exec_eq_afterExec (by omega) hs.1.2 .nop
  have room : (afterExec .nop s).pc + 3 ≤ (afterExec .nop s).stream.length := by
    rw [afterExec_pc, afterExec_stream]
    omega
  obtain ⟨t₂, t₃, t₄, second, third, fourth, no_error, in_exmem, in_memwb, mem, regs⟩ :=
    passage_of_bubble (w := Word.noop) (inv_afterExec (by omega) hs .nop) room rfl
  exact ⟨afterExec .nop s, t₂, t₃, t₄, decoded, second, third, fourth, no_error, rfl, rfl, in_exmem, in_memwb, mem, regs⟩

/-- Settles O36: the decode cycle of an unsupported word raises its DecodeMiss first and leaves the bubble of the word. -/
theorem unsupportedWordIsSkipped : Obligations.UnsupportedWordIsSkipped := by
  unfold Obligations.UnsupportedWordIsSkipped
  intro s w hs hw hd hroom
  have h : s.pc < s.stream.length := by omega
  have first := unsupportedDecodeCycle s w h hs.1.2 hw hd
  set t₁ := synchronous s.stream[s.pc] { IDEX.noop with iw := w } [.decodeMiss w] s
  have room : t₁.pc + 3 ≤ t₁.stream.length := by
    show s.pc + 1 + 3 ≤ s.stream.length
    omega
  have report : t₁.err = s.err ++
      (Error.decodeMiss w :: accessErrors s.memSize s.exmem.read).map (fun e => (s.cycle + 1, e)) := rfl
  have reported : (s.cycle + 1, Error.decodeMiss w) ∈ t₁.err := by simp [report]
  have fault : t₁.fault = true := Bool.or_true s.fault
  obtain ⟨t₂, t₃, t₄, second, third, fourth, no_error, in_exmem, in_memwb, mem, regs⟩ :=
    passage_of_bubble (stepKeepsInv s t₁ hs first) room rfl
  exact ⟨t₁, t₂, t₃, t₄, first, second, third, fourth, no_error, fault, mem_errAt reported, report, rfl, in_exmem,
    in_memwb, mem, regs⟩

/-! ## Empty latches (R37, R150) -/

/-- NOOP payloads meet R108, as they do at reset. -/
theorem latchesOk_of_allNoop {s : State} (hs : AllNoop s) : s.LatchesOk := by
  obtain ⟨⟨-, reset_ok⟩, -⟩ : State.reset.Inv := resetState_inv (by decide) []
  obtain ⟨-, hidex, hexmem, hmemwb⟩ := hs
  rw [State.LatchesOk, hidex, hexmem, hmemwb]
  exact reset_ok

/-- A cycle that finds NOOP payloads in all latches and fetches a NOOP word advances the fetch index and the cycle count,
and changes nothing else. -/
theorem afterCycle_of_allNoop {s : State} (hs : AllNoop s) (hw : s.stream.getD s.pc Word.noop = Word.noop) :
    afterCycle s = { s with pc := s.pc + 1, cycle := s.cycle + 1 } := by
  obtain ⟨hifid, hidex, hexmem, hmemwb⟩ := hs
  have payload : wordPayload Word.noop s = IDEX.noop := rfl
  have no_miss : decodeErrors Word.noop = [] := rfl
  have no_error : accessErrors s.memSize EXMEM.noop = [] := rfl
  have same_mem : memoryAfter s.memSize s.mem EXMEM.noop = s.mem := rfl
  rw [afterCycle, synchronous, hw, hifid, hidex, hexmem, hmemwb, payload, no_miss, no_error, same_mem,
    executePayload_bubble, accessResult_bubble, registerWrite_bubble]
  simp [applyWrite, ← hifid, ← hidex, ← hexmem, ← hmemwb]

/-- Settles O52, by induction on the number of steps: each is a cycle of empty latches, or the stutter after the last
word. -/
theorem noopStreamChangesNothing : Obligations.NoopStreamChangesNothing := by
  unfold Obligations.NoopStreamChangesNothing
  intro s hs hstream k
  induction k generalizing s with
  | zero => exact ⟨s, rfl, rfl, rfl, rfl, rfl, hs⟩
  | succ k ih =>
    rcases Nat.lt_or_ge s.pc s.stream.length with h | h
    · have fetched : s.stream.getD s.pc Word.noop = Word.noop := by
        rw [List.getD_eq_getElem _ _ h]
        exact hstream _ (List.getElem_mem h)
      have first := step_eq_afterCycle h (latchesOk_of_allNoop hs)
      rw [afterCycle_of_allNoop hs fetched] at first
      obtain ⟨t, rest, unchanged⟩ := ih { s with pc := s.pc + 1, cycle := s.cycle + 1 } hs hstream
      exact ⟨t, ⟨_, first, rest⟩, unchanged⟩
    · exact ⟨s, steps_of_ended h (k + 1), rfl, rfl, rfl, rfl, hs⟩

end Sys2Proof.Proofs

/-! The end of a run by the last words of its stream: the statement of 60_exceptions.md settled from what the stages
hold. -/

namespace Sys2Proof.Proofs

open Sys2Proof.Machine Sys2Proof.Safety

/-- At the end of a run the word fetched `j` cycles ago is the `j`th from the end of the stream, so it is not NOOP only
where there is such a word (R26). -/
theorem fetchedBefore_ne_noop_at_end {s : State} (hpc : s.pc = s.stream.length) (j : Nat) :
    fetchedBefore s j ≠ Word.noop ↔ j ≤ s.stream.length ∧ s.stream.getD (s.stream.length - j) 0 ≠ 0 := by
  rw [fetchedBefore, hpc]
  split
  case isTrue h => exact (and_iff_right h).symm
  case isFalse h => exact iff_of_false (fun hne => hne rfl) (fun hw => h hw.1)

/-- The ages of the words in the four latches, written out (R26, R105). -/
theorem exists_one_to_four_iff {p : Nat → Prop} :
    (∃ j, 1 ≤ j ∧ j ≤ 4 ∧ p j) ↔ p 1 ∨ p 2 ∨ p 3 ∨ p 4 := by
  constructor
  · rintro ⟨j, hlow, hhigh, hj⟩
    interval_cases j <;> simp [hj]
  · rintro (h | h | h | h)
    exacts [⟨1, by decide, by decide, h⟩, ⟨2, by decide, by decide, h⟩, ⟨3, by decide, by decide, h⟩,
      ⟨4, by decide, by decide, h⟩]

/-- Settles O51: the read sides hold the words fetched one to four cycles ago, which at the end of the run are the last
four of the stream. -/
theorem streamExhaustedByLastFourWords : Obligations.StreamExhaustedByLastFourWords := by
  unfold Obligations.StreamExhaustedByLastFourWords
  intro s htracks hpc
  obtain ⟨in_decode, in_execute, in_access, in_writeBack⟩ := htracks
  have ended : s.Ended := hpc.ge
  rw [State.StreamExhaustedMidFlight, and_iff_right ended, in_decode, in_execute, in_access, in_writeBack,
    ← exists_one_to_four_iff (p := fun j => fetchedBefore s j ≠ Word.noop)]
  simp only [fetchedBefore_ne_noop_at_end hpc]

end Sys2Proof.Proofs

/-! The pipeline against the machine that executes one instruction at a time: a word without a pending source, a
hazard-safe stream, and the statements of 70_reset_and_hazards.md settled from them. -/

namespace Sys2Proof.Proofs

open Sys2Proof.Machine Sys2Proof.Safety Sys2Proof.Laws

/-! ## What an instruction computes depends on its sources and on memory alone -/

theorem regOf_applyWrite_other (regs : Vector Word 32) {w : Option (RegIdx × Word)} {r : RegIdx}
    (h : w.map Prod.fst ≠ some r) : regOf (applyWrite regs w) r = regOf regs r := by
  cases w with
  | none => rfl
  | some p =>
    have other : r ≠ p.1 := fun e => h (congrArg some e.symm)
    simpa [regOf, Vector.get_eq_getElem] using get_applyWrite_other regs p.2 other

section
variable {i : Instr} {a b : Arch} (hregs : ∀ r ∈ sources i, regOf a.regs r = regOf b.regs r)
include hregs

theorem accessAddress_congr : accessAddress i a = accessAddress i b := by
  cases i with
  | nop | add | sub => rfl
  | lb rs rt imm | sb rs rt imm =>
    exact congrArg (fun base => some (base + imm.signExtend 32)) (hregs rs List.mem_cons_self)

theorem writeOf_congr (hmem : a.mem = b.mem) (memSize : Nat) : writeOf memSize i a = writeOf memSize i b := by
  have address := accessAddress_congr hregs
  cases i with
  | nop | sb => rfl
  | add rs rt | sub rs rt =>
    have hrs := hregs rs List.mem_cons_self
    have hrt := hregs rt (List.mem_cons_of_mem rs List.mem_cons_self)
    rw [writeOf, hrs, hrt, writeOf]
  | lb => rw [writeOf, Option.some.inj address, hmem, writeOf]

theorem storeOf_congr (hmem : a.mem = b.mem) (memSize : Nat) : storeOf memSize i a = storeOf memSize i b := by
  have address := accessAddress_congr hregs
  cases i with
  | nop | add | sub | lb => exact hmem
  | sb rs rt =>
    have value := hregs rt (List.mem_cons_of_mem rs List.mem_cons_self)
    rw [storeOf, Option.some.inj address, value, hmem, storeOf]

end

/-! ## A word without a pending source (R194) -/

/-- Without a pending source, the operands that decode reads are those that the completed state holds. -/
theorem regOf_flush {q : Queued} {i : Instr} (h : NoPendingSource q i) :
    ∀ r ∈ sources i, regOf q.arch.regs r = regOf q.flush.regs r := by
  intro r hr
  obtain ⟨oldest, middle, newest⟩ := h r hr
  simp only [Queued.flush, regOf_applyWrite_other _ newest, regOf_applyWrite_other _ middle,
    regOf_applyWrite_other _ oldest]

/-- Completing behind a word without a pending source is executing it on the completed state. -/
theorem flush_queuedStep {q : Queued} {i : Instr} (h : NoPendingSource q i) (memSize : Nat) :
    (queuedStep memSize q i).flush = sequentialStep memSize q.flush i := by
  have operands := regOf_flush h
  rw [sequentialStep, ← writeOf_congr operands rfl, ← storeOf_congr operands rfl]
  rfl

/-- Settles O57: the cycle is the program-order step, which queues what the word writes behind the pending writes. -/
theorem hazardFreeCycleIsSequential : Obligations.HazardFreeCycleIsSequential := by
  unfold Obligations.HazardFreeCycleIsSequential
  intro s hs h hpending
  obtain ⟨t, hstep, view⟩ := cycleIsOneProgramOrderStep s hs h
  exact ⟨t, hstep, (congrArg Queued.flush view).trans (flush_queuedStep hpending s.memSize)⟩

/-! ## A hazard-safe stream on the program-order machine (R194, R200) -/

/-- The first `n` instructions of `p` read no register that the write `w` changes. -/
def Unread (w : Option (RegIdx × Word)) (n : Nat) (p : List Instr) : Prop :=
  ∀ j < n, ∀ r ∈ sources (p.getD j .nop), w.map Prod.fst ≠ some r

theorem Unread.tail {w : Option (RegIdx × Word)} {n : Nat} {i : Instr} {p : List Instr}
    (h : Unread w (n + 1) (i :: p)) : Unread w n p :=
  fun j hj => h (j + 1) (Nat.succ_lt_succ hj)

theorem hazardSafe_tail {i : Instr} {p : List Instr} (h : HazardSafe (i :: p)) : HazardSafe p :=
  fun j k hkj hj => h (j + 1) (k + 1) (Nat.succ_lt_succ hkj) (by omega)

theorem map_fst_writeOf {memSize : Nat} {i : Instr} {a : Arch} {r : RegIdx}
    (h : (writeOf memSize i a).map Prod.fst = some r) : destination i = some r := by
  cases i with
  | nop | sb => cases h
  | add | sub => exact h
  | lb rs rt imm =>
    simp only [writeOf] at h
    split at h
    · exact h
    · cases h

/-- In a hazard-safe stream the next three instructions do not read what the first one writes. -/
theorem unread_writeOf {i : Instr} {p : List Instr} (h : HazardSafe (i :: p)) (memSize : Nat) (a : Arch) :
    Unread (writeOf memSize i a) 3 p :=
  fun j hj r hr hw => h (j + 1) 0 j.succ_pos (by omega) r hr (map_fst_writeOf hw)

/-- The program-order machine runs `p` as the sequential machine does from its completed state, without an error: `p` is
hazard-safe, no queued write reaches it before it is committed, and its addresses are in range. -/
structure Ready (memSize : Nat) (q : Queued) (p : List Instr) : Prop where
  safe : HazardSafe p
  oldest : Unread q.oldest 1 p
  middle : Unread q.middle 2 p
  newest : Unread q.newest 3 p
  inRange : AddressesInRange memSize p q.flush

theorem Ready.noPendingSource {memSize : Nat} {q : Queued} {i : Instr} {p : List Instr} (h : Ready memSize q (i :: p)) :
    NoPendingSource q i :=
  fun r hr => ⟨h.oldest 0 (by decide) r hr, h.middle 0 (by decide) r hr, h.newest 0 (by decide) r hr⟩

theorem Ready.step {memSize : Nat} {q : Queued} {i : Instr} {p : List Instr} (h : Ready memSize q (i :: p)) :
    Ready memSize (queuedStep memSize q i) p where
  safe := hazardSafe_tail h.safe
  oldest := h.middle.tail
  middle := h.newest.tail
  newest := unread_writeOf h.safe memSize q.arch
  inRange := by
    obtain ⟨-, rest⟩ := h.inRange
    rwa [flush_queuedStep h.noPendingSource]

/-- The address at which the pipeline accesses memory is that of the sequential machine, so it is in range. -/
theorem Ready.accessInRange {memSize : Nat} {q : Queued} {i : Instr} {p : List Instr} (h : Ready memSize q (i :: p)) :
    ∀ ea, accessAddress i q.arch = some ea → ea.toNat < memSize := by
  obtain ⟨first, -⟩ := h.inRange
  rwa [accessAddress_congr (regOf_flush h.noPendingSource)]

theorem Ready.flush_foldl {memSize : Nat} {q : Queued} {p : List Instr} (h : Ready memSize q p) :
    (p.foldl (queuedStep memSize) q).flush = p.foldl (sequentialStep memSize) q.flush := by
  induction p generalizing q with
  | nil => rfl
  | cons i p ih =>
    rw [List.foldl_cons, ih h.step, flush_queuedStep h.noPendingSource, List.foldl_cons]

/-- With no write queued, a hazard-safe stream with its addresses in range is ready to run. -/
theorem ready_of_no_queue {memSize : Nat} {a : Arch} {p : List Instr} (hsafe : HazardSafe p)
    (hrange : AddressesInRange memSize p a) : Ready memSize ⟨a, none, none, none⟩ p :=
  ⟨hsafe, fun _ _ _ _ => nofun, fun _ _ _ _ => nofun, fun _ _ _ _ => nofun, hrange⟩

/-! ## The no-ops around a stream -/

theorem hazardSafe_nop_cons {p : List Instr} (h : HazardSafe p) : HazardSafe (.nop :: p) := by
  intro j k hkj hj
  cases k with
  | zero => exact fun _ _ => nofun
  | succ k =>
    cases j with
    | zero => cases hkj
    | succ j => exact h j k (by omega) (by omega)

theorem getD_append_replicate_nop (p : List Instr) (n j : Nat) :
    (p ++ List.replicate n Instr.nop).getD j .nop = p.getD j .nop := by
  rcases Nat.lt_or_ge j p.length with h | h
  · exact List.getD_append _ _ _ _ h
  · rw [List.getD_append_right _ _ _ _ h, List.getD_eq_default _ _ h, List.getD_eq_getElem?_getD,
      List.getElem?_getD_replicate_default_eq]

theorem hazardSafe_append_nops {p : List Instr} (h : HazardSafe p) (n : Nat) :
    HazardSafe (p ++ List.replicate n .nop) := by
  simp only [HazardSafe, getD_append_replicate_nop]
  exact h

theorem addressesInRange_nops (memSize n : Nat) (a : Arch) : AddressesInRange memSize (List.replicate n .nop) a := by
  induction n with
  | zero => trivial
  | succ n ih => exact ⟨nofun, ih⟩

theorem addressesInRange_append_nops {memSize : Nat} {p : List Instr} {a : Arch} (h : AddressesInRange memSize p a)
    (n : Nat) : AddressesInRange memSize (p ++ List.replicate n .nop) a := by
  induction p generalizing a with
  | nil => exact addressesInRange_nops memSize n a
  | cons i p ih =>
    obtain ⟨first, rest⟩ := h
    exact ⟨first, ih rest⟩

/-! ## A run without an error (R160, R200) -/

/-- No error has been reported, and the accesses of the two words behind decode will report none. -/
structure Quiet (s : State) : Prop where
  faultFree : FaultFree s
  access : accessErrors s.memSize s.exmem.read = []
  execute : accessErrors s.memSize (executePayload s.idex.read) = []

theorem quiet_of_allNoop {s : State} (hs : AllNoop s) (hf : FaultFree s) : Quiet s := by
  obtain ⟨-, hidex, hexmem, -⟩ := hs
  have access : accessErrors s.memSize s.exmem.read = [] := by
    rw [hexmem]
    rfl
  have execute : accessErrors s.memSize (executePayload s.idex.read) = [] := by
    rw [hidex]
    rfl
  exact ⟨hf, access, execute⟩

/-- An instruction whose effective address, if it has one, is in range reports no error in memory-access. -/
theorem accessErrors_instrPayload {i : Instr} {s : State} {mem : Memory}
    (h : ∀ ea, accessAddress i ⟨s.regs, mem⟩ = some ea → ea.toNat < s.memSize) :
    accessErrors s.memSize (executePayload (instrPayload i s)) = [] := by
  cases i with
  | nop => rfl
  | add rs rt rd shamt =>
    rw [executePayload_add]
    exact accessErrors_of_no_access rfl rfl s.memSize
  | sub rs rt rd shamt =>
    rw [executePayload_sub]
    exact accessErrors_of_no_access rfl rfl s.memSize
  | lb rs rt imm =>
    rw [executePayload_lb, effectiveAddress_reg]
    exact accessErrors_of_inRange rfl (h _ rfl)
  | sb rs rt imm =>
    rw [executePayload_sb, effectiveAddress_reg]
    exact accessErrors_of_inRange rfl (h _ rfl)

/-- A cycle that decodes a supported word with its address in range raises nothing, now or later. -/
theorem quiet_afterCycle {s : State} {i : Instr} (hs : Quiet s) (hword : s.ifid.read.iw = encode i)
    (h : ∀ ea, accessAddress i (queuedView s).arch = some ea → ea.toNat < s.memSize) : Quiet (afterCycle s) where
  faultFree := by
    show (s.fault || !(decodeErrors s.ifid.read.iw ++ accessErrors s.memSize s.exmem.read).isEmpty) = false
    rw [hs.faultFree, hword, decodeErrors_encode, hs.access]
    rfl
  access := hs.execute
  execute := by
    show accessErrors s.memSize (executePayload (wordPayload s.ifid.read.iw s)) = []
    rw [hword, wordPayload_encode]
    exact accessErrors_instrPayload h

theorem runsAs_encode (i : Instr) : runsAs (encode i) = i := by
  rw [runsAs, decode_encode]

/-- While the pipeline decodes a ready stream, it stays quiet. -/
theorem quiet_iterate_afterCycle {i : Instr} {p : List Instr} {s : State} (hs : Quiet s)
    (hword : s.ifid.read.iw = encode i) (hstream : s.stream.drop s.pc = p.map encode)
    (hready : Ready s.memSize (queuedView s) (i :: p)) : Quiet (afterCycle^[p.length] s) := by
  induction p generalizing i s with
  | nil => exact hs
  | cons i' p ih =>
    have room : s.pc < s.stream.length := by
      by_contra h
      simp [List.drop_eq_nil_of_le (Nat.le_of_not_lt h)] at hstream
    obtain ⟨fetched, rest⟩ := List.cons_eq_cons.1 ((List.drop_eq_getElem_cons room).symm.trans hstream)
    apply ih (quiet_afterCycle hs hword hready.accessInRange) ((afterCycle_ifid_iw room).trans fetched) rest
    rw [queuedView_afterCycle, hword, runsAs_encode]
    exact hready.step

/-! ## The end of a padded stream (R103, R200) -/

/-- A number of steps leads to one state. -/
theorem steps_unique {k : Nat} {s t u : State} (ht : Steps k s t) (hu : Steps k s u) : t = u :=
  Host.Outcome.next.inj (((steps_iff_run k s t).1 ht).symm.trans ((steps_iff_run k s u).1 hu))

theorem take_append_replicate (p : List Instr) {k n : Nat} (h : k ≤ n) :
    (p ++ List.replicate n Instr.nop).take (p.length + k) = p ++ List.replicate k .nop := by
  rw [List.take_length_add_append, List.take_replicate, Nat.min_eq_left h]

/-- Three no-ops commit all queued writes, and the memory has every store already (R107). -/
theorem arch_foldl_three_nops (memSize : Nat) (q : Queued) :
    ((List.replicate 3 Instr.nop).foldl (queuedStep memSize) q).arch = q.flush := rfl

theorem mem_foldl_one_nop (memSize : Nat) (q : Queued) :
    ((List.replicate 1 Instr.nop).foldl (queuedStep memSize) q).arch.mem = q.flush.mem := rfl

/-- Settles O59: the registers are those of the program-order machine after the stream and three no-ops, the memory is
that after the stream and one, and no cycle of the run raises an error. -/
theorem hazardSafeRunIsSequential : Obligations.HazardSafeRunIsSequential := by
  unfold Obligations.HazardSafeRunIsSequential
  intro s p hs hnoop hpc hfault hstream hsafe hrange
  obtain ⟨t, steps, regs, mem⟩ := runMatchesProgramOrder s hs hnoop hpc
  refine ⟨t, steps, ?endState, ?noError⟩
  case endState =>
    have words : s.stream.map runsAs = p ++ List.replicate 4 .nop := by
      simp [hstream, Function.comp_def, runsAs_encode]
    have length : s.stream.length = p.length + 4 := by simp [hstream]
    rw [words, length, Nat.add_sub_assoc (by decide)] at regs mem
    rw [take_append_replicate p (k := 3) (by decide), List.foldl_append, arch_foldl_three_nops] at regs
    rw [take_append_replicate p (k := 1) (by decide), List.foldl_append, mem_foldl_one_nop] at mem
    rw [regs, mem]
    exact (ready_of_no_queue hsafe hrange).flush_foldl
  case noError =>
    have start : queuedView s = ⟨⟨s.regs, s.mem⟩, none, none, none⟩ :=
      queuedView_iterate_of_allNoop hnoop hpc (Nat.zero_le _)
    have ready : Ready s.memSize (queuedView s) (.nop :: (p ++ List.replicate 4 .nop)) := by
      rw [start]
      exact ready_of_no_queue (hazardSafe_nop_cons (hazardSafe_append_nops hsafe 4))
        ⟨nofun, addressesInRange_append_nops hrange 4⟩
    have word : s.ifid.read.iw = encode .nop := congrArg (·.read.iw) hnoop.1
    have stream : s.stream.drop s.pc = (p ++ List.replicate 4 Instr.nop).map encode := by
      rw [hpc, List.drop_zero, hstream]
    have quiet := quiet_iterate_afterCycle (quiet_of_allNoop hnoop hfault) word stream ready
    rw [← List.length_map encode, ← hstream] at quiet
    rw [steps_unique steps (steps_iterate_afterCycle hs (by omega))]
    exact quiet.faultFree

end Sys2Proof.Proofs
